-- ==== Sys2Proof/Word.lean ====
section
/-! DEFINITION. The word types of the Ice8 core (00_scope.md R8: unsigned values of a stated width,
bit 0 the least significant; nothing is signed). -/

namespace Sys2Proof

/-- A byte: a memory cell, a general register, a timer (10_state.md R20). -/
abbrev Byte := BitVec 8

/-- A 16-bit value: an instruction word, pc, I, a stack entry (10_state.md R20). -/
abbrev Word := BitVec 16

/-- A 4-bit field of an instruction word (30_encoding.md R92). -/
abbrev Nibble := BitVec 4

/-- The 12-bit address literal `nnn` (30_encoding.md R92). -/
abbrev Addr12 := BitVec 12

/-- The number of a general register, 0..15 (10_state.md R21). -/
abbrev Reg := Fin 16

/-- The number of a key line, 0..15 (10_state.md R30). -/
abbrev Key := Fin 16

/-- The display: 32 rows of 64 one-bit cells, row 0 at the top; column c is bit c of its row
(10_state.md R27). -/
abbrev Bitmap := Vector (BitVec 64) 32

end Sys2Proof
end

