-- ==== Sys2Proof/Config.lean ====
section
/-! DEFINITION. What is fixed for the machine: the parameters of 00_scope.md R6 that the model names,
and the one free value, the random byte of 41_alu.md R155. -/

namespace Sys2Proof

/-- PROG_BASE of R6: where the loader puts the image, and the reset value of pc. -/
abbrev Config.progBase : Nat := 0x200

/-- MAX_IMAGE of R6: 4096 - 0x200 bytes. -/
abbrev Config.maxImage : Nat := 3584

/-- The byte `rnd` that the n-th execution of RND draws: "a fresh draw at every execution of the
instruction: any of the 256 byte values, independent of all state and of earlier draws" (41_alu.md
R155, decision D25). A free value: it has no body, so nothing can be proved of what it is. The
counter `State.draws` supplies n. (notes/assumptions/2.md) -/
opaque Config.rnd : Nat → Byte

end Sys2Proof
end

