-- ==== Sys2Proof/Syntax.lean ====
section
/-! DEFINITION. The 34 instructions (30_encoding.md R96), one constructor per row of
spec/opcode_table.json, in the table's order. Operand types carry their ranges, so every term is an
instruction of the table (WellFormed.lean). The nibbles an instruction ignores (`u` of families 5
and 9, R98; `y` of SHR and SHL, 41_alu.md R149, R151) are kept as operands: no bit of a word is
lost, and every legal word is the encoding of exactly one term (notes/assumptions/11.md). -/

namespace Sys2Proof

inductive Instr where
  /-- CLS, 00E0: clear display (43_display.md R191). -/
  | cls
  /-- RET, 00EE: return from subroutine (40_flow.md R121). -/
  | ret
  /-- JP nnn, 1nnn: jump (40_flow.md R122). -/
  | jp (nnn : Addr12)
  /-- CALL nnn, 2nnn: call subroutine (40_flow.md R123). -/
  | call (nnn : Addr12)
  /-- SE Vx, kk, 3xkk: skip if register equals immediate (40_flow.md R125). -/
  | seI (x : Reg) (kk : Byte)
  /-- SNE Vx, kk, 4xkk: skip if register differs from immediate (40_flow.md R126). -/
  | sneI (x : Reg) (kk : Byte)
  /-- SE Vx, Vy, 5xyu: skip if register equals register, u ignored (40_flow.md R127). -/
  | seR (x y : Reg) (u : Nibble)
  /-- LD Vx, kk, 6xkk: set register to immediate (41_alu.md R141). -/
  | ldI (x : Reg) (kk : Byte)
  /-- ADD Vx, kk, 7xkk: add immediate (41_alu.md R142). -/
  | addI (x : Reg) (kk : Byte)
  /-- LD Vx, Vy, 8xy0: assignment (41_alu.md R143). -/
  | ldR (x y : Reg)
  /-- OR Vx, Vy, 8xy1 (41_alu.md R144). -/
  | orR (x y : Reg)
  /-- AND Vx, Vy, 8xy2 (41_alu.md R145). -/
  | andR (x y : Reg)
  /-- XOR Vx, Vy, 8xy3 (41_alu.md R146). -/
  | xorR (x y : Reg)
  /-- ADD Vx, Vy, 8xy4: add with carry out (41_alu.md R147). -/
  | addR (x y : Reg)
  /-- SUB Vx, Vy, 8xy5: Vx - Vy (41_alu.md R148). -/
  | sub (x y : Reg)
  /-- SHR Vx, 8xy6: shift right, y ignored (41_alu.md R149). -/
  | shr (x y : Reg)
  /-- SUBN Vx, Vy, 8xy7: Vy - Vx (41_alu.md R150). -/
  | subn (x y : Reg)
  /-- SHL Vx, 8xyE: shift left, y ignored (41_alu.md R151). -/
  | shl (x y : Reg)
  /-- SNE Vx, Vy, 9xyu: skip if register differs from register, u ignored (40_flow.md R128). -/
  | sneR (x y : Reg) (u : Nibble)
  /-- LD I, nnn, Annn: set index register (42_index_memory.md R170). -/
  | ldIdx (nnn : Addr12)
  /-- JP V0, nnn, Bnnn: jump with offset (40_flow.md R129). -/
  | jpV0 (nnn : Addr12)
  /-- RND Vx, kk, Cxkk: random byte under a mask (41_alu.md R155). -/
  | rnd (x : Reg) (kk : Byte)
  /-- DRW Vx, Vy, n, Dxyn: draw sprite (43_display.md R192). -/
  | drw (x y : Reg) (n : Nibble)
  /-- SKP Vx, Ex9E: skip if key held (44_timers_keys.md R213). -/
  | skp (x : Reg)
  /-- SKNP Vx, ExA1: skip if key not held (44_timers_keys.md R214). -/
  | sknp (x : Reg)
  /-- LD Vx, DT, Fx07: read delay timer (44_timers_keys.md R210). -/
  | ldVxDt (x : Reg)
  /-- LD Vx, K, Fx0A: wait for key (44_timers_keys.md R215). -/
  | ldVxK (x : Reg)
  /-- LD DT, Vx, Fx15: write delay timer (44_timers_keys.md R211). -/
  | ldDtVx (x : Reg)
  /-- LD ST, Vx, Fx18: write sound timer (44_timers_keys.md R212). -/
  | ldStVx (x : Reg)
  /-- ADD I, Vx, Fx1E: index-add (42_index_memory.md R171). -/
  | addIdx (x : Reg)
  /-- LD F, Vx, Fx29: glyph address (42_index_memory.md R172). -/
  | ldF (x : Reg)
  /-- LD B, Vx, Fx33: decimal digits (42_index_memory.md R173). -/
  | ldB (x : Reg)
  /-- LD [I], Vx, Fx55: block store (42_index_memory.md R175). -/
  | stM (x : Reg)
  /-- LD Vx, [I], Fx65: block load (42_index_memory.md R176). -/
  | ldM (x : Reg)
deriving DecidableEq, Repr

end Sys2Proof
end

