-- ==== Sys2Proof/WellFormed.lean ====
section
/-! DEFINITION. Well-formedness. The operands of an instruction need no check: `Reg` is 0..15, `Byte`
is 0..255, `Addr12` is 0..4095, `Nibble` is 0..15, so every term of `Instr` is one of the 34
instructions of 30_encoding.md R96 with operands its fields admit, and no ill-formed term can be
written. The one thing that is given to the machine and can be ill-formed is a program image. -/

namespace Sys2Proof

/-- The loader "fails if its length exceeds `4096 − 0x200`" (70_reset_and_hazards.md R273): an image
of 0..3584 bytes is accepted, a longer one is refused outside the core (60_exceptions.md R256). -/
def imageWf (image : List Byte) : Bool := decide (image.length ≤ Config.maxImage)

end Sys2Proof
end

