-- ==== Sys2Proof/Decode.lean ====
section
/-! DEFINITION. Decode and encode (30_encoding.md). Decode is total on the 65536 words (R95) and
rejects the illegal ones by the set of R99 they belong to; encode is written from the patterns of
R96. Opcode numbers and field positions other than the leading 4 bits are the spec's decisions D2, D3
and D6 (notes/assumptions/7.md). -/

namespace Sys2Proof

/-! ## Fields (R92) -/

/-- `op = w[15:12]`, the opcode family. -/
def opField (w : Word) : Nibble := w.extractLsb' 12 4
/-- `x = w[11:8]`, as four bits. -/
def xField (w : Word) : Nibble := w.extractLsb' 8 4
/-- `y = w[7:4]`, as four bits. -/
def yField (w : Word) : Nibble := w.extractLsb' 4 4
/-- `n = w[3:0]`. -/
def nField (w : Word) : Nibble := w.extractLsb' 0 4
/-- `kk = w[7:0]`. -/
def kkField (w : Word) : Byte := w.extractLsb' 0 8
/-- `nnn = w[11:0]`. -/
def nnnField (w : Word) : Addr12 := w.extractLsb' 0 12

/-- The register a selector of four bits names. -/
def regOf (b : Nibble) : Reg := b.toFin
/-- The four bits that name a register. -/
def Reg.bits (x : Reg) : Nibble := BitVec.ofFin x

/-! ## Decode -/

/-- Why a word is not an instruction: the four sets of R99; and a byte sequence too short to hold
one (R90: every instruction is exactly 2 bytes). -/
inductive Reject where
  /-- Family 0 other than 00E0 and 00EE. -/
  | illegalFamily0
  /-- Family 8 with n in 8, 9, A, B, C, D, F. -/
  | illegalFamily8
  /-- Family E with kk neither 9E nor A1. -/
  | illegalFamilyE
  /-- Family F with kk none of the nine secondary literals. -/
  | illegalFamilyF
  /-- Fewer than two bytes. -/
  | truncated
deriving DecidableEq, Repr

/-- Family 0 is decoded by the whole word (R97). -/
def decodeFamily0 (w : Word) : Except Reject Instr :=
  if w = 0x00E0 then .ok .cls else if w = 0x00EE then .ok .ret else .error .illegalFamily0

/-- Family 8 is decoded by the low nibble (R95, R104). -/
def decodeFamily8 (x y : Reg) (n : Nibble) : Except Reject Instr :=
  if n = 0x0 then .ok (.ldR x y)
  else if n = 0x1 then .ok (.orR x y)
  else if n = 0x2 then .ok (.andR x y)
  else if n = 0x3 then .ok (.xorR x y)
  else if n = 0x4 then .ok (.addR x y)
  else if n = 0x5 then .ok (.sub x y)
  else if n = 0x6 then .ok (.shr x y)
  else if n = 0x7 then .ok (.subn x y)
  else if n = 0xE then .ok (.shl x y)
  else .error .illegalFamily8

/-- Family E is decoded by the low byte (R95, R104). -/
def decodeFamilyE (x : Reg) (kk : Byte) : Except Reject Instr :=
  if kk = 0x9E then .ok (.skp x)
  else if kk = 0xA1 then .ok (.sknp x)
  else .error .illegalFamilyE

/-- Family F is decoded by the low byte (R95, R104). -/
def decodeFamilyF (x : Reg) (kk : Byte) : Except Reject Instr :=
  if kk = 0x07 then .ok (.ldVxDt x)
  else if kk = 0x0A then .ok (.ldVxK x)
  else if kk = 0x15 then .ok (.ldDtVx x)
  else if kk = 0x18 then .ok (.ldStVx x)
  else if kk = 0x1E then .ok (.addIdx x)
  else if kk = 0x29 then .ok (.ldF x)
  else if kk = 0x33 then .ok (.ldB x)
  else if kk = 0x55 then .ok (.stM x)
  else if kk = 0x65 then .ok (.ldM x)
  else .error .illegalFamilyF

/-- The decoder of R104: first the opcode family, then the secondary literal of the multiplexed
families. The last branch is family F. -/
def decode (w : Word) : Except Reject Instr :=
  let x := regOf (xField w)
  let y := regOf (yField w)
  let n := nField w
  let kk := kkField w
  let nnn := nnnField w
  let op := opField w
  if op = 0x0 then decodeFamily0 w
  else if op = 0x1 then .ok (.jp nnn)
  else if op = 0x2 then .ok (.call nnn)
  else if op = 0x3 then .ok (.seI x kk)
  else if op = 0x4 then .ok (.sneI x kk)
  else if op = 0x5 then .ok (.seR x y n)
  else if op = 0x6 then .ok (.ldI x kk)
  else if op = 0x7 then .ok (.addI x kk)
  else if op = 0x8 then decodeFamily8 x y n
  else if op = 0x9 then .ok (.sneR x y n)
  else if op = 0xA then .ok (.ldIdx nnn)
  else if op = 0xB then .ok (.jpV0 nnn)
  else if op = 0xC then .ok (.rnd x kk)
  else if op = 0xD then .ok (.drw x y n)
  else if op = 0xE then decodeFamilyE x kk
  else decodeFamilyF x kk

/-- The word of two bytes as memory holds them: the byte at the lower address is `w[15:8]`
(20_memory.md R64, R66). -/
def wordOfBytes (b0 b1 : Byte) : Word := b0 ++ b1

/-- The byte of a word at the lower address. -/
def firstByte (w : Word) : Byte := w.extractLsb' 8 8
/-- The byte of a word at the higher address. -/
def secondByte (w : Word) : Byte := w.extractLsb' 0 8

/-- Decoding a byte sequence: the instruction at its head and the bytes after it (R90). -/
def decodeBytes : List Byte → Except Reject (Instr × List Byte)
  | b0 :: b1 :: rest => (decode (wordOfBytes b0 b1)).map fun i => (i, rest)
  | _ => .error .truncated

/-! ## Encode -/

/-- Format A of R93: a family and an address literal. -/
def formatA (op : Nibble) (nnn : Addr12) : Word := op ++ nnn
/-- Formats XK and XS of R93: a family, a register, a byte. -/
def formatXK (op : Nibble) (x : Reg) (kk : Byte) : Word := op ++ x.bits ++ kk
/-- Formats XY and XYN of R93: a family, two registers, a nibble. -/
def formatXY (op : Nibble) (x y : Reg) (n : Nibble) : Word := op ++ x.bits ++ y.bits ++ n

/-- The word of an instruction: the patterns of R96. -/
def encode : Instr → Word
  | .cls => 0x00E0
  | .ret => 0x00EE
  | .jp nnn => formatA 0x1 nnn
  | .call nnn => formatA 0x2 nnn
  | .seI x kk => formatXK 0x3 x kk
  | .sneI x kk => formatXK 0x4 x kk
  | .seR x y u => formatXY 0x5 x y u
  | .ldI x kk => formatXK 0x6 x kk
  | .addI x kk => formatXK 0x7 x kk
  | .ldR x y => formatXY 0x8 x y 0x0
  | .orR x y => formatXY 0x8 x y 0x1
  | .andR x y => formatXY 0x8 x y 0x2
  | .xorR x y => formatXY 0x8 x y 0x3
  | .addR x y => formatXY 0x8 x y 0x4
  | .sub x y => formatXY 0x8 x y 0x5
  | .shr x y => formatXY 0x8 x y 0x6
  | .subn x y => formatXY 0x8 x y 0x7
  | .shl x y => formatXY 0x8 x y 0xE
  | .sneR x y u => formatXY 0x9 x y u
  | .ldIdx nnn => formatA 0xA nnn
  | .jpV0 nnn => formatA 0xB nnn
  | .rnd x kk => formatXK 0xC x kk
  | .drw x y n => formatXY 0xD x y n
  | .skp x => formatXK 0xE x 0x9E
  | .sknp x => formatXK 0xE x 0xA1
  | .ldVxDt x => formatXK 0xF x 0x07
  | .ldVxK x => formatXK 0xF x 0x0A
  | .ldDtVx x => formatXK 0xF x 0x15
  | .ldStVx x => formatXK 0xF x 0x18
  | .addIdx x => formatXK 0xF x 0x1E
  | .ldF x => formatXK 0xF x 0x29
  | .ldB x => formatXK 0xF x 0x33
  | .stM x => formatXK 0xF x 0x55
  | .ldM x => formatXK 0xF x 0x65

/-- The bytes of an instruction as memory holds them, first byte at the lower address. -/
def encodeBytes (i : Instr) : List Byte := [firstByte (encode i), secondByte (encode i)]

/-! ## The host's view of the table -/

/-- The 16-bit word of a table row of `nbits` bits whose bits are `w`: the bits above `nbits` are
zero (an instruction has 16). -/
def tableWord (nbits w : Nat) : Word := BitVec.ofNat 16 (w % 2 ^ nbits)

/-- What the decoder reads from a table word laid out as memory holds it, big-endian (20_memory.md
R66). -/
def decodeTableWord (nbits w : Nat) : Option Instr :=
  let word := tableWord nbits w
  match decodeBytes [firstByte word, secondByte word] with
  | .ok (i, _) => some i
  | .error _ => none

end Sys2Proof
end

