-- ==== Sys2Proof/Machine/State.lean ====
section
/-! DEFINITION. The state of the Ice8 core: every field of 10_state.md R20, the faults of
60_exceptions.md R231, the events of R243, and the state after reset (10_state.md R34). -/

namespace Sys2Proof.Machine

/-- The closed list of faults of 60_exceptions.md R231, each with its info: what the `fault` register
holds. A fault is no stop of the model: the spec describes what taking one does (the state before
the step with the fault register set) and what the machine does from then on (nothing at a `Step`,
R239), so each is raised into a NEXT state and no step answers the outcome `fault`
(notes/assumptions/3.md). Safe: nothing the spec lets the machine do is left out. -/
inductive Fault where
  /-- Code 1, raised by the fetch of any step that begins with pc above 4094; info: pc0 (R232). -/
  | pcOutOfRange (pc0 : Word)
  /-- Code 2, raised by decode on an illegal word; info: the word (R233). -/
  | illegalInstruction (w : Word)
  /-- Code 3, raised by CALL with sp = 16 (R234). -/
  | stackOverflow
  /-- Code 4, raised by RET with sp = 0 (R235). -/
  | stackUnderflow
  /-- Code 5, raised by DRW, LD B, LD [I], LD Vx,[I] when the highest address of the range exceeds
  0xFFF; info: the lowest address of the range above 0xFFF (R236). -/
  | memOutOfRange (addr : Word)
  /-- Code 6, raised by SKP and SKNP when V[x] exceeds 15; info: V[x] (R237). -/
  | keyIndexOutOfRange (k : Byte)
deriving DecidableEq, Repr

/-- Why the model gives a step no meaning. -/
inductive Refusal where
  /-- Raised by an arm of `exec` whose instruction has no meaning yet. Safe: the model stops. No arm
  does so. -/
  | notModelled (mnemonic : String)
  /-- Raised by the event `boot` with an image of more than 3584 bytes: "refused outside the core and
  no run begins" (70_reset_and_hazards.md R273, 60_exceptions.md R256). Safe: the spec has no run. -/
  | imageTooLong (length : Nat)
deriving DecidableEq, Repr

/-- The events that change the state, each issued by an agent outside the core (60_exceptions.md
R243), and the start of a run. -/
inductive Event where
  /-- `Step`: the host loop lets the engine execute one instruction (R245). -/
  | step
  /-- `Tick`: the fixed-cadence trigger (R246). -/
  | tick
  /-- `KeyPress(k)`: the keyboard adapter asserts key line k (R247). -/
  | keyPress (k : Key)
  /-- `Reset` followed by `Load(image)`, the order 70_reset_and_hazards.md R274 fixes; with the empty
  image, `Reset` alone (R270, R273). -/
  | boot (image : List Byte)
deriving DecidableEq, Repr

/-- The machine's state. The first eleven fields, from `v` to `fault`, are the whole architectural
state of 10_state.md R20; the last three are the model's own. -/
structure State where
  /-- V0..VF (10_state.md R21); VF = V[15] is the flag register (R22). -/
  v : Vector Byte 16
  /-- The index register I (R23). -/
  i : Word
  /-- The program counter (R24). -/
  pc : Word
  /-- The private call stack (R25). -/
  stack : Vector Word 16
  /-- The stack pointer: the number of entries in use, 0..16 (R25, R32). -/
  sp : Fin 17
  /-- The display: cell (r, c) is bit c of row r (R27). -/
  disp : Bitmap
  /-- The delay timer DT (R28). -/
  dt : Byte
  /-- The sound timer ST (R29). -/
  st : Byte
  /-- The key latches: key line k is bit k (R30, R32). -/
  key : BitVec 16
  /-- The memory, as the cells that differ from what reset leaves there, in rising order of address
  (20_memory.md R60; `Memory.wf` in Machine/Memory.lean). -/
  mem : List Host.Cell
  /-- The fault register (R31). -/
  fault : Option Fault
  /-- The model's own: how many random bytes RND has drawn (notes/assumptions/2.md). -/
  draws : Nat
  /-- The model's own: the events still to come; when none is listed the next one is `Step`
  (notes/assumptions/1.md). -/
  events : List Event
  /-- The model's own: the `Present` outputs emitted so far, newest first (60_exceptions.md R250,
  notes/assumptions/5.md). -/
  presented : List Bitmap
deriving DecidableEq, Repr

/-- The state after reset (10_state.md R34): memory as reset leaves it (nothing listed), pc = 0x200,
everything else zero, `fault = none`. -/
def State.reset : State where
  v := Vector.replicate 16 0
  i := 0
  pc := BitVec.ofNat 16 Config.progBase
  stack := Vector.replicate 16 0
  sp := 0
  disp := Vector.replicate 32 0
  dt := 0
  st := 0
  key := 0
  mem := []
  fault := none
  draws := 0
  events := []
  presented := []

end Sys2Proof.Machine
end

