-- ==== Sys2Proof/Machine/Memory.lean ====
section
/-! DEFINITION. The memory of 4096 bytes (20_memory.md R60 to R66) as a list of cells: what reset
leaves at an address, reading and writing one byte, writing several, and the canonical form. -/

namespace Sys2Proof.Machine

/-- The glyph table of 20_memory.md R62, glyph g at 5 * g, top row first (decision D21,
notes/assumptions/7.md). -/
def glyphTable : List Byte :=
  [0xF0, 0x90, 0x90, 0x90, 0xF0] ++ [0x20, 0x60, 0x20, 0x20, 0x70] ++
  [0xF0, 0x10, 0xF0, 0x80, 0xF0] ++ [0xF0, 0x10, 0xF0, 0x10, 0xF0] ++
  [0x90, 0x90, 0xF0, 0x10, 0x10] ++ [0xF0, 0x80, 0xF0, 0x10, 0xF0] ++
  [0xF0, 0x80, 0xF0, 0x90, 0xF0] ++ [0xF0, 0x10, 0x20, 0x40, 0x40] ++
  [0xF0, 0x90, 0xF0, 0x90, 0xF0] ++ [0xF0, 0x90, 0xF0, 0x10, 0xF0] ++
  [0xF0, 0x90, 0xF0, 0x90, 0x90] ++ [0xE0, 0x90, 0xE0, 0x90, 0xE0] ++
  [0xF0, 0x80, 0x80, 0x80, 0xF0] ++ [0xE0, 0x90, 0x90, 0x90, 0xE0] ++
  [0xF0, 0x80, 0xF0, 0x80, 0xF0] ++ [0xF0, 0x80, 0xF0, 0x80, 0x80]

/-- What an address that is not listed reads as: what reset leaves there, the glyph table at
0x000..0x04F and zero above (10_state.md R34, 20_memory.md R61). -/
def resetByte (a : Nat) : Byte := glyphTable.getD a 0

/-- The byte at an address: the listed one, else the reset content. -/
def Memory.read (m : List Host.Cell) (a : Nat) : Byte :=
  match m with
  | [] => resetByte a
  | c :: rest => if c.1 = a then c.2 else Memory.read rest a

/-- Puts a cell before the first one of a higher address. -/
def Memory.insert (c : Host.Cell) : List Host.Cell → List Host.Cell
  | [] => [c]
  | d :: rest => if c.1 < d.1 then c :: d :: rest else d :: Memory.insert c rest

/-- Writing one byte. The cell is dropped, and listed again where its byte differs from the reset
content, so the canonical form is kept. There is no byte above 0xFFF: the operations that write
check their range first (20_memory.md R65), and a write there would change nothing
(notes/assumptions/9.md). -/
def Memory.write (m : List Host.Cell) (a : Nat) (b : Byte) : List Host.Cell :=
  if a < 4096 then
    let others := m.filter fun c => c.1 != a
    if b = resetByte a then others else Memory.insert (a, b) others
  else m

/-- Writing bytes at ascending addresses from `a`. -/
def Memory.writeList (m : List Host.Cell) (a : Nat) : List Byte → List Host.Cell
  | [] => m
  | b :: bs => Memory.writeList (Memory.write m a b) (a + 1) bs

/-- The canonical form: addresses strictly rising and below 4096, and no cell that holds what an
unlisted address reads as. Equal memories are then equal lists. -/
abbrev Memory.wf (m : List Host.Cell) : Prop :=
  m.Pairwise (fun c d => c.1 < d.1) ∧ ∀ c ∈ m, c.1 < 4096 ∧ c.2 ≠ resetByte c.1

end Sys2Proof.Machine
end

