-- ==== Sys2Proof/Machine/Ops.lean ====
section
/-! DEFINITION. The named operations over registers and memory that the meanings share, and taking a
fault (60_exceptions.md R231). -/

namespace Sys2Proof.Machine

/-! ## General registers (10_state.md R21) -/

/-- `V[x]`. -/
def State.getV (s : State) (x : Reg) : Byte := s.v[x]

/-- `V[x] <- b`. No register is hardwired and none aliases another (R21). -/
def State.setV (s : State) (x : Reg) (b : Byte) : State := { s with v := s.v.set x b }

/-- The number of the flag register VF (10_state.md R22). -/
abbrev flagReg : Reg := 15

/-- `V[x] <- result`, then `V[F] <- flag`: the flag is written last, so that with x = F the result is
lost (41_alu.md R140, decision D13). -/
def State.setResultFlag (s : State) (x : Reg) (result flag : Byte) : State :=
  (s.setV x result).setV flagReg flag

/-- `V[k], V[k+1], ... <- bytes`, ascending. -/
def setRegs (v : Vector Byte 16) (k : Nat) : List Byte → Vector Byte 16
  | [] => v
  | b :: bs => setRegs (v.setIfInBounds k b) (k + 1) bs

/-! ## The other registers -/

/-- `I <- a` (10_state.md R23). -/
def State.setI (s : State) (a : Word) : State := { s with i := a }
/-- `pc <- target` (00_scope.md R9). -/
def State.setPc (s : State) (target : Word) : State := { s with pc := target }
/-- `DT <- b` (10_state.md R28). -/
def State.setDt (s : State) (b : Byte) : State := { s with dt := b }
/-- `ST <- b` (10_state.md R29). -/
def State.setSt (s : State) (b : Byte) : State := { s with st := b }
/-- Key line k (10_state.md R30). -/
def State.keyLine (s : State) (k : Nat) : Bool := s.key.getLsbD k

/-- The output level `tone_request` (60_exceptions.md R251). -/
def State.toneRequest (s : State) : Bool := s.st != 0

/-- `emit Present` (60_exceptions.md R250): the whole display is handed to the sink. -/
def State.emitPresent (s : State) : State := { s with presented := s.disp :: s.presented }

/-! ## Memory (20_memory.md) -/

/-- `mem[a]`. -/
def State.byteAt (s : State) (a : Nat) : Byte := Memory.read s.mem a

/-- `mem[a], mem[a+1], ... <- bytes`, ascending. -/
def State.writeBytes (s : State) (a : Nat) (bytes : List Byte) : State :=
  { s with mem := Memory.writeList s.mem a bytes }

/-- The range check of the memory instructions (42_index_memory.md R174, 43_display.md R192): the
range is `base .. base + len - 1` in exact arithmetic; when it reaches above 0xFFF the fault's info
is the lowest address of the range above 0xFFF, `max(base, 0x1000)`. An empty range is not checked
(43_display.md R196). With `len = 1` this is the check of `MemRead(addr, 1)` and `MemWrite(addr, 1)`
(20_memory.md R63, R65). -/
def rangeFault (base : Word) (len : Nat) : Option Fault :=
  if len > 0 ∧ base.toNat + len - 1 > 0xFFF then
    some (.memOutOfRange (if base.toNat > 0x1000 then base else 0x1000))
  else none

/-- The bytes of a range, ascending: `MemRead(base + k, 1)` for each k below `len`, the whole range
checked first. -/
def readRange (s : State) (base : Word) (len : Nat) : Except Fault (List Byte) :=
  match rangeFault base len with
  | some f => .error f
  | none => .ok ((List.range len).map fun k => s.byteAt (base.toNat + k))

/-- Writes bytes ascending from `base`: `MemWrite(base + k, 1, bytes[k])` for each k, the whole range
checked before the first byte is written (20_memory.md R65). -/
def writeRange (s : State) (base : Word) (bytes : List Byte) : Except Fault State :=
  match rangeFault base bytes.length with
  | some f => .error f
  | none => .ok (s.writeBytes base.toNat bytes)

/-! ## The call stack (10_state.md R25) -/

/-- Push: `stack[sp] <- a; sp <- sp + 1`; none when sp = 16. -/
def State.push (s : State) (a : Word) : Option State :=
  if h : s.sp.val < 16 then
    some { s with stack := s.stack.set s.sp.val a h, sp := ⟨s.sp.val + 1, by omega⟩ }
  else none

/-- Pop: `sp <- sp - 1`, then the entry at the new sp; none when sp = 0. The entry keeps its value. -/
def State.pop (s : State) : Option (Word × State) :=
  if h : s.sp.val = 0 then none
  else
    have lt : s.sp.val - 1 < 16 := by omega
    some (s.stack[s.sp.val - 1]'lt, { s with sp := ⟨s.sp.val - 1, by omega⟩ })

/-! ## Taking a fault (60_exceptions.md R231, R239) -/

/-- What every instruction's meaning answers. -/
abbrev Result := Host.Outcome State Fault Refusal

/-- `raise F(info)` at the instruction whose address is `pc0`, in a state where the step has changed
nothing but pc: pc is `pc0` again and the fault register holds F. There is no handler, no vector and
no saved register (R239), and no return: only `Reset` clears the register (R240). -/
def raise (pc0 : Word) (f : Fault) (s : State) : Result :=
  .next { s with pc := pc0, fault := some f }

/-- The address of the executing instruction: while it executes, `pc = pc0 + 2` (30_encoding.md R91).
LD Vx,K goes back to it too (44_timers_keys.md R215). -/
def State.instrAddr (s : State) : Word := s.pc - 2

/-- `raise F(info)` from inside an instruction, before it has changed anything: all the execute-time
checks come first (60_exceptions.md R238). -/
def raiseHere (f : Fault) (s : State) : Result := raise s.instrAddr f s

end Sys2Proof.Machine
end

