-- ==== Sys2Proof/Machine/Flags.lean ====
section
/-! DEFINITION. The flag computations (10_state.md R22): an instruction that sets the flag writes the
byte 0x00 or 0x01 to VF. Each is a function of the operands read at the start (41_alu.md R140). -/

namespace Sys2Proof.Machine

/-- A flag as the byte VF receives. -/
def flagByte (p : Bool) : Byte := if p then 1 else 0

/-- ADD: 1 when the exact sum exceeds 255 (41_alu.md R147). -/
def carryFlag (a b : Byte) : Byte := flagByte (decide (a.toNat + b.toNat > 255))

/-- `a - b`: 1 when no borrow occurs, that is a ≥ b (41_alu.md R148, R150). -/
def noBorrowFlag (a b : Byte) : Byte := flagByte (decide (a.toNat ≥ b.toNat))

/-- SHR: bit 0 before the shift (41_alu.md R149). -/
def shrFlag (a : Byte) : Byte := flagByte (a.getLsbD 0)

/-- The parameter SHL_FLAG_NORMALISED, true in the spec (00_scope.md R7, decision D15,
notes/assumptions/6.md). -/
def shlFlagNormalised : Bool := true

/-- SHL's flag under either reading: bit 7 before the shift as 0 or 1, or the masked byte. -/
def shlFlagOf (normalised : Bool) (a : Byte) : Byte :=
  if normalised then flagByte (a.getLsbD 7) else a &&& 0x80

/-- SHL: bit 7 before the shift, as 0 or 1; never 0x80 (41_alu.md R151). -/
def shlFlag (a : Byte) : Byte := shlFlagOf shlFlagNormalised a

end Sys2Proof.Machine
end

