-- ==== Sys2Proof/Machine/Operands.lean ====
section
/-! DEFINITION. The operand forms (30_encoding.md R94): nothing is sign-extended, scaled or shifted.
A register or an immediate is a byte as it stands, `nnn` is an address of 16 bits, a register's
value in 16-bit arithmetic is zero-extended. -/

namespace Sys2Proof.Machine

/-- `zext_16(nnn)`: an absolute target or address (30_encoding.md R94, 40_flow.md R120). -/
def absAddr (nnn : Addr12) : Word := nnn.zeroExtend 16

/-- `zext_16(b)`: a register's value in 16-bit arithmetic (30_encoding.md R94). -/
def wide (b : Byte) : Word := b.zeroExtend 16

/-- The target of JP V0: `zext_16(nnn) + zext_16(V[0])`, at most 0x10FE (40_flow.md R129). -/
def offsetTarget (s : State) (nnn : Addr12) : Word := absAddr nnn + wide (s.getV 0)

/-- How many registers a block instruction with selector x moves: V0..Vx inclusive
(42_index_memory.md R175). -/
def blockLen (x : Reg) : Nat := x.val + 1

/-- The values of V0..Vx, ascending (42_index_memory.md R175). -/
def blockRegs (s : State) (x : Reg) : List Byte := s.v.toList.take (blockLen x)

/-- The three decimal digits of a byte, hundreds first (42_index_memory.md R173, decision D22). -/
def decimalDigits (a : Byte) : List Byte := [a / 100, a / 10 % 10, a % 10]

/-- The address of a glyph, `5 * zext_16(V[x])`, the register's value not masked (42_index_memory.md
R172, decision D20). -/
def glyphAddr (b : Byte) : Word := 5 * wide b

/-- The least held key line (44_timers_keys.md R215: "scans all 16 key lines in ascending index
order"). -/
def lowestKey (s : State) : Option Nat := (List.range 16).find? fun k => s.keyLine k

end Sys2Proof.Machine
end

