-- ==== Sys2Proof/Machine/Alu.lean ====
section
/-! DEFINITION. Register load, the 8-prefixed arithmetic family and RND (41_alu.md). Bytes wrap modulo
256 (R152); operands are read before anything is written and the flag is written last (R140). -/

namespace Sys2Proof.Machine

/-- LD Vx, kk (R141). -/
def execLdI (x : Reg) (kk : Byte) (s : State) : Result := .next (s.setV x kk)

/-- ADD Vx, kk (R142): no flag is written, whatever the sum. -/
def execAddI (x : Reg) (kk : Byte) (s : State) : Result := .next (s.setV x (s.getV x + kk))

/-- LD Vx, Vy (R143). -/
def execLdR (x y : Reg) (s : State) : Result := .next (s.setV x (s.getV y))

/-- OR Vx, Vy (R144). -/
def execOrR (x y : Reg) (s : State) : Result := .next (s.setV x (s.getV x ||| s.getV y))

/-- AND Vx, Vy (R145). -/
def execAndR (x y : Reg) (s : State) : Result := .next (s.setV x (s.getV x &&& s.getV y))

/-- XOR Vx, Vy (R146). -/
def execXorR (x y : Reg) (s : State) : Result := .next (s.setV x (s.getV x ^^^ s.getV y))

/-- ADD Vx, Vy (R147): VF receives the carry out. -/
def execAddR (x y : Reg) (s : State) : Result :=
  let a := s.getV x
  let b := s.getV y
  .next (s.setResultFlag x (a + b) (carryFlag a b))

/-- SUB Vx, Vy (R148): Vx - Vy, VF receives not-borrow. -/
def execSub (x y : Reg) (s : State) : Result :=
  let a := s.getV x
  let b := s.getV y
  .next (s.setResultFlag x (a - b) (noBorrowFlag a b))

/-- SHR Vx (R149): in place, y is ignored (decision D14). -/
def execShr (x _y : Reg) (s : State) : Result :=
  let a := s.getV x
  .next (s.setResultFlag x (a >>> 1) (shrFlag a))

/-- SUBN Vx, Vy (R150): Vy - Vx into Vx, VF receives not-borrow. -/
def execSubn (x y : Reg) (s : State) : Result :=
  let a := s.getV x
  let b := s.getV y
  .next (s.setResultFlag x (b - a) (noBorrowFlag b a))

/-- SHL Vx (R151): in place, y is ignored (decision D14). -/
def execShl (x _y : Reg) (s : State) : Result :=
  let a := s.getV x
  .next (s.setResultFlag x (a <<< 1) (shlFlag a))

/-- RND Vx, kk (R155): a fresh free byte under the mask. -/
def execRnd (x : Reg) (kk : Byte) (s : State) : Result :=
  .next { s.setV x (Config.rnd s.draws &&& kk) with draws := s.draws + 1 }

end Sys2Proof.Machine
end

