-- ==== Sys2Proof/Machine/Display.lean ====
section
/-! DEFINITION. The display instructions CLS and DRW (43_display.md). -/

namespace Sys2Proof.Machine

/-- The 64 cells of a row; there are rows 0..31. -/
def rowCells (d : Bitmap) (row : Nat) : BitVec 64 := d[row]?.getD 0

/-- `disp[row][col]` (10_state.md R27). -/
def cell (d : Bitmap) (row col : Nat) : Bool := (rowCells d row).getLsbD col

/-- `disp[row][col] <- disp[row][col] ^ bit`. -/
def xorCell (d : Bitmap) (row col : Nat) (bit : Bool) : Bitmap :=
  if bit then d.setIfInBounds row (rowCells d row ^^^ BitVec.twoPow 64 col) else d

/-- The clear display (R191). -/
def clearDisplay : Bitmap := Vector.replicate 32 0

/-- What a draw carries from pixel to pixel: the display and whether some pixel was hit. -/
structure Drawing where
  disp : Bitmap
  hit : Bool
deriving DecidableEq, Repr

/-- One pixel of the sprite (R192): inside the 64 × 32 bound a 1 bit on a lit cell is a hit (R195) and
the cell is XORed with the bit; outside, the pixel is dropped (R194). -/
def drawPixel (row col : Nat) (bit : Bool) (d : Drawing) : Drawing :=
  if row ≤ 31 ∧ col ≤ 63 then
    { disp := xorCell d.disp row col bit, hit := d.hit || (bit && cell d.disp row col) }
  else d

/-- One sprite row (R192): the eight bits of its byte, the most significant leftmost. -/
def drawByte (row left : Nat) (b : Byte) (d : Drawing) : Drawing :=
  (List.range 8).foldl (fun d c => drawPixel row (left + c) (b.getLsbD (7 - c)) d) d

/-- The sprite rows from `row` down, one a byte (R192). -/
def drawRows (row left : Nat) : List Byte → Drawing → Drawing
  | [], d => d
  | b :: bs, d => drawRows (row + 1) left bs (drawByte row left b d)

/-- CLS (R191): all 2048 cells 0, then `emit Present`. -/
def execCls (s : State) : Result := .next ({ s with disp := clearDisplay } : State).emitPresent

/-- DRW Vx, Vy, n (R192): the origin wraps once, at entry (R193); the whole range of n bytes is
checked, none when n = 0 (R196); VF is written last (41_alu.md R140), then `emit Present`. -/
def execDrw (x y : Reg) (n : Nibble) (s : State) : Result :=
  match readRange s s.i n.toNat with
  | .error f => raiseHere f s
  | .ok bytes =>
    let left := (s.getV x).toNat % 64
    let top := (s.getV y).toNat % 32
    let d := drawRows top left bytes { disp := s.disp, hit := false }
    .next ((({ s with disp := d.disp } : State).setV flagReg (flagByte d.hit)).emitPresent)

end Sys2Proof.Machine
end

