-- ==== Sys2Proof/Machine/Flow.lean ====
section
/-! DEFINITION. Control transfer (40_flow.md): RET, JP, CALL, SE, SNE, JP V0. Every meaning runs after
the fetch, so pc is already `pc0 + 2` (30_encoding.md R91). -/

namespace Sys2Proof.Machine

/-- The skip contract (R124): when the condition holds, `pc <- pc + 2`. -/
def skipIf (p : Prop) [Decidable p] (s : State) : State := if p then s.setPc (s.pc + 2) else s

/-- RET (R121): pop pc; StackUnderflow at sp = 0. -/
def execRet (s : State) : Result :=
  match s.pop with
  | none => raiseHere .stackUnderflow s
  | some (target, s') => .next (s'.setPc target)

/-- JP nnn (R122). -/
def execJp (nnn : Addr12) (s : State) : Result := .next (s.setPc (absAddr nnn))

/-- CALL nnn (R123): push pc, the address after this CALL, then jump; StackOverflow at sp = 16. -/
def execCall (nnn : Addr12) (s : State) : Result :=
  match s.push s.pc with
  | none => raiseHere .stackOverflow s
  | some s' => .next (s'.setPc (absAddr nnn))

/-- SE Vx, kk (R125). -/
def execSeI (x : Reg) (kk : Byte) (s : State) : Result := .next (skipIf (s.getV x = kk) s)

/-- SNE Vx, kk (R126). -/
def execSneI (x : Reg) (kk : Byte) (s : State) : Result := .next (skipIf (s.getV x ≠ kk) s)

/-- SE Vx, Vy (R127); the low nibble is ignored (30_encoding.md R98). -/
def execSeR (x y : Reg) (_u : Nibble) (s : State) : Result :=
  .next (skipIf (s.getV x = s.getV y) s)

/-- SNE Vx, Vy (R128); the low nibble is ignored (30_encoding.md R98). -/
def execSneR (x y : Reg) (_u : Nibble) (s : State) : Result :=
  .next (skipIf (s.getV x ≠ s.getV y) s)

/-- JP V0, nnn (R129): the sum is not reduced and not checked here. -/
def execJpV0 (nnn : Addr12) (s : State) : Result := .next (s.setPc (offsetTarget s nnn))

end Sys2Proof.Machine
end

