-- ==== Sys2Proof/Machine/IndexMemory.lean ====
section
/-! DEFINITION. The index register and the memory instructions (42_index_memory.md). No flag is
written, and the memory instructions leave I unchanged (R174, decision D23). -/

namespace Sys2Proof.Machine

/-- LD I, nnn (R170). -/
def execLdIdx (nnn : Addr12) (s : State) : Result := .next (s.setI (absAddr nnn))

/-- ADD I, Vx (R171): wraps modulo 65536, VF is not written. -/
def execAddIdx (x : Reg) (s : State) : Result := .next (s.setI (s.i + wide (s.getV x)))

/-- LD F, Vx (R172). -/
def execLdF (x : Reg) (s : State) : Result := .next (s.setI (glyphAddr (s.getV x)))

/-- LD B, Vx (R173): hundreds, tens and ones to I, I + 1, I + 2. -/
def execLdB (x : Reg) (s : State) : Result :=
  match writeRange s s.i (decimalDigits (s.getV x)) with
  | .error f => raiseHere f s
  | .ok s' => .next s'

/-- LD [I], Vx (R175): V0..Vx inclusive to I, I + 1, ... -/
def execStM (x : Reg) (s : State) : Result :=
  match writeRange s s.i (blockRegs s x) with
  | .error f => raiseHere f s
  | .ok s' => .next s'

/-- LD Vx, [I] (R176): V0..Vx inclusive from I, I + 1, ... -/
def execLdM (x : Reg) (s : State) : Result :=
  match readRange s s.i (blockLen x) with
  | .error f => raiseHere f s
  | .ok bytes => .next { s with v := setRegs s.v 0 bytes }

end Sys2Proof.Machine
end

