-- ==== Sys2Proof/Machine/TimersKeys.lean ====
section
/-! DEFINITION. Timer and key instructions (44_timers_keys.md). -/

namespace Sys2Proof.Machine

/-- LD Vx, DT (R210). -/
def execLdVxDt (x : Reg) (s : State) : Result := .next (s.setV x s.dt)

/-- LD DT, Vx (R211). -/
def execLdDtVx (x : Reg) (s : State) : Result := .next (s.setDt (s.getV x))

/-- LD ST, Vx (R212). -/
def execLdStVx (x : Reg) (s : State) : Result := .next (s.setSt (s.getV x))

/-- SKP Vx (R213): KeyIndexOutOfRange above 15, else skip if the key line is 1. -/
def execSkp (x : Reg) (s : State) : Result :=
  let k := s.getV x
  if k.toNat > 15 then raiseHere (.keyIndexOutOfRange k) s
  else .next (skipIf (s.keyLine k.toNat = true) s)

/-- SKNP Vx (R214): KeyIndexOutOfRange above 15, else skip if the key line is 0. -/
def execSknp (x : Reg) (s : State) : Result :=
  let k := s.getV x
  if k.toNat > 15 then raiseHere (.keyIndexOutOfRange k) s
  else .next (skipIf (s.keyLine k.toNat = false) s)

/-- LD Vx, K (R215): the least held key, which stays held; with none held, pc goes back so that this
instruction runs again. -/
def execLdVxK (x : Reg) (s : State) : Result :=
  match lowestKey s with
  | some k => .next (s.setV x (BitVec.ofNat 8 k))
  | none => .next (s.setPc s.instrAddr)

end Sys2Proof.Machine
end

