-- ==== Sys2Proof/Machine/Dispatch.lean ====
section
/-! DEFINITION. One arm per instruction, in the order of spec/opcode_table.json. -/

namespace Sys2Proof.Machine

def exec (i : Instr) (s : State) : Host.Outcome State Fault Refusal :=
  match i with
  | .cls => Sys2Proof.Machine.execCls s
  | .ret => Sys2Proof.Machine.execRet s
  | .jp nnn => Sys2Proof.Machine.execJp nnn s
  | .call nnn => Sys2Proof.Machine.execCall nnn s
  | .seI x kk => Sys2Proof.Machine.execSeI x kk s
  | .sneI x kk => Sys2Proof.Machine.execSneI x kk s
  | .seR x y u => Sys2Proof.Machine.execSeR x y u s
  | .ldI x kk => Sys2Proof.Machine.execLdI x kk s
  | .addI x kk => Sys2Proof.Machine.execAddI x kk s
  | .ldR x y => Sys2Proof.Machine.execLdR x y s
  | .orR x y => Sys2Proof.Machine.execOrR x y s
  | .andR x y => Sys2Proof.Machine.execAndR x y s
  | .xorR x y => Sys2Proof.Machine.execXorR x y s
  | .addR x y => Sys2Proof.Machine.execAddR x y s
  | .sub x y => Sys2Proof.Machine.execSub x y s
  | .shr x y => Sys2Proof.Machine.execShr x y s
  | .subn x y => Sys2Proof.Machine.execSubn x y s
  | .shl x y => Sys2Proof.Machine.execShl x y s
  | .sneR x y u => Sys2Proof.Machine.execSneR x y u s
  | .ldIdx nnn => Sys2Proof.Machine.execLdIdx nnn s
  | .jpV0 nnn => Sys2Proof.Machine.execJpV0 nnn s
  | .rnd x kk => Sys2Proof.Machine.execRnd x kk s
  | .drw x y n => Sys2Proof.Machine.execDrw x y n s
  | .skp x => Sys2Proof.Machine.execSkp x s
  | .sknp x => Sys2Proof.Machine.execSknp x s
  | .ldVxDt x => Sys2Proof.Machine.execLdVxDt x s
  | .ldVxK x => Sys2Proof.Machine.execLdVxK x s
  | .ldDtVx x => Sys2Proof.Machine.execLdDtVx x s
  | .ldStVx x => Sys2Proof.Machine.execLdStVx x s
  | .addIdx x => Sys2Proof.Machine.execAddIdx x s
  | .ldF x => Sys2Proof.Machine.execLdF x s
  | .ldB x => Sys2Proof.Machine.execLdB x s
  | .stM x => Sys2Proof.Machine.execStM x s
  | .ldM x => Sys2Proof.Machine.execLdM x s

end Sys2Proof.Machine
end

