-- ==== Sys2Proof/Machine/Engine.lean ====
section
/-! DEFINITION. The agents of the core (60_exceptions.md R243 to R247): the fetch and the execution of
one instruction, the tick, the key press, and reset and load (70_reset_and_hazards.md R270, R273). -/

namespace Sys2Proof.Machine

/-! ## `Step` (R245) -/

/-- `MemRead(pc, 2)`: the byte at the lower address is the high byte (20_memory.md R64). -/
def fetchWord (s : State) : Word := wordOfBytes (s.byteAt s.pc.toNat) (s.byteAt (s.pc.toNat + 1))

/-- The fetch of 30_encoding.md R91 and the decode: the range check, the word, `pc <- pc0 + 2`, and
the instruction; or the fault of either (60_exceptions.md R238: PcOutOfRange comes first). -/
def fetch (s : State) : Except Fault (Instr × State) :=
  if s.pc.toNat > 4094 then .error (.pcOutOfRange s.pc)
  else
    match decode (fetchWord s) with
    | .error _ => .error (.illegalInstruction (fetchWord s))
    | .ok i => .ok (i, s.setPc (s.pc + 2))

/-- `Step` (60_exceptions.md R245): nothing when the fault register is set (R239), else one
instruction, completely, or a fault. -/
def engineStep (s : State) : Result :=
  if s.fault.isSome then .next s
  else
    match fetch s with
    | .error f => raise s.pc f s
    | .ok (i, s') => exec i s'

/-! ## `Tick`, `KeyPress`, `Reset`, `Load` -/

/-- A countdown timer lowered by one tick: 0 stays 0 (R246). -/
def countDown (t : Byte) : Byte := if t = 0 then 0 else t - 1

/-- `Tick` (R246): both timers count down and all 16 key lines are cleared. -/
def tick (s : State) : State := { s with dt := countDown s.dt, st := countDown s.st, key := 0 }

/-- `KeyPress(k)` (R247): key line k is set. -/
def keyPress (k : Key) (s : State) : State := { s with key := s.key ||| BitVec.twoPow 16 k.val }

/-- `Reset` at any time (70_reset_and_hazards.md R270): every piece of the machine's state at its
reset value. What the model keeps beside it is no part of the machine and goes on: the draws made,
the outputs given, the events to come (notes/assumptions/10.md). -/
def resetNow (s : State) : State :=
  { State.reset with draws := s.draws, events := s.events, presented := s.presented }

/-- `Load(image)` (70_reset_and_hazards.md R273): the image, verbatim, from 0x200 up. -/
def load (image : List Byte) (s : State) : State := s.writeBytes Config.progBase image

/-- `Reset`, then `Load(image)`; an image that is too long is refused and no run begins
(60_exceptions.md R256). -/
def boot (image : List Byte) (s : State) : Result :=
  if imageWf image then .next (load image (resetNow s)) else .refused (.imageTooLong image.length)

/-! ## The order of events (R244) -/

/-- The next event: the first that is listed, else the host loop's next `Step`
(notes/assumptions/1.md). -/
def State.nextEvent (s : State) : Event := s.events.headD .step

/-- The state with its next event taken off the list. -/
def State.dropEvent (s : State) : State := { s with events := s.events.tail }

/-- One event, complete before the next begins (R244). -/
def takeEvent (e : Event) (s : State) : Result :=
  match e with
  | .step => engineStep s
  | .tick => .next (tick s)
  | .keyPress k => .next (keyPress k s)
  | .boot image => boot image s

/-! ## Placing an instruction where the next step fetches it -/

/-- Makes the next event a `Step` of an engine that can fetch: no event listed before it, no fault,
and a pc at which a fetch is legal (notes/assumptions/4.md). -/
def readyToFetch (s : State) : State :=
  { s with
    events := []
    fault := none
    pc := if s.pc.toNat > 4094 then BitVec.ofNat 16 Config.progBase else s.pc }

/-- Stores a word at pc as memory holds it. -/
def placeAtPc (word : Word) (s : State) : State :=
  s.writeBytes s.pc.toNat [firstByte word, secondByte word]

end Sys2Proof.Machine
end

