-- ==== Sys2Proof/Machine/Step.lean ====
section
/-! DEFINITION. The step of the machine: one event (60_exceptions.md R244). -/

namespace Sys2Proof.Machine

/-- One event of the run: the next one, taken off the list. Where none is listed it is the `Step` of
60_exceptions.md R245, which fetches and executes one instruction. -/
def step (s : State) : Host.Outcome State Fault Refusal := takeEvent s.nextEvent s.dropEvent

/-- The state with a table word stored where the very next step fetches its instruction. -/
def State.withFetchWord (s : State) (nbits w : Nat) : State :=
  placeAtPc (tableWord nbits w) (readyToFetch s)

end Sys2Proof.Machine
end

