-- ==== Sys2Proof/Safety.lean ====
section
/-! DEFINITION. The terms claims are stated in: the conditions under which a step faults
(60_exceptions.md R231), the opcode map, what each instruction may write, the pixels of a sprite, the end of a run,
and the invariant every step keeps. -/

namespace Sys2Proof.Machine

/-! ## The opcode map (30_encoding.md R96, R99) -/

/-- The opcode map of 30_encoding.md R96: the word is row r's when `w & mask = match`. The rows are written out from the
table: number, match, mask. -/
def opcodeMap : List (Nat × Word × Word) :=
  [(1, 0x00E0, 0xFFFF), (2, 0x00EE, 0xFFFF), (3, 0x1000, 0xF000), (4, 0x2000, 0xF000), (5, 0x3000, 0xF000),
   (6, 0x4000, 0xF000), (7, 0x5000, 0xF000), (8, 0x6000, 0xF000), (9, 0x7000, 0xF000)] ++
  [(10, 0x8000, 0xF00F), (11, 0x8001, 0xF00F), (12, 0x8002, 0xF00F), (13, 0x8003, 0xF00F), (14, 0x8004, 0xF00F),
   (15, 0x8005, 0xF00F), (16, 0x8006, 0xF00F), (17, 0x8007, 0xF00F), (18, 0x800E, 0xF00F)] ++
  [(19, 0x9000, 0xF000), (20, 0xA000, 0xF000), (21, 0xB000, 0xF000), (22, 0xC000, 0xF000), (23, 0xD000, 0xF000),
   (24, 0xE09E, 0xF0FF), (25, 0xE0A1, 0xF0FF)] ++
  [(26, 0xF007, 0xF0FF), (27, 0xF00A, 0xF0FF), (28, 0xF015, 0xF0FF), (29, 0xF018, 0xF0FF), (30, 0xF01E, 0xF0FF),
   (31, 0xF029, 0xF0FF), (32, 0xF033, 0xF0FF), (33, 0xF055, 0xF0FF), (34, 0xF065, 0xF0FF)]

/-- The row number of 30_encoding.md R96 that an instruction has. -/
def rowOf : Instr → Nat
  | .cls => 1 | .ret => 2 | .jp _ => 3 | .call _ => 4 | .seI _ _ => 5 | .sneI _ _ => 6 | .seR _ _ _ => 7
  | .ldI _ _ => 8 | .addI _ _ => 9 | .ldR _ _ => 10 | .orR _ _ => 11 | .andR _ _ => 12 | .xorR _ _ => 13
  | .addR _ _ => 14 | .sub _ _ => 15 | .shr _ _ => 16 | .subn _ _ => 17 | .shl _ _ => 18 | .sneR _ _ _ => 19
  | .ldIdx _ => 20 | .jpV0 _ => 21 | .rnd _ _ => 22 | .drw _ _ _ => 23 | .skp _ => 24 | .sknp _ => 25
  | .ldVxDt _ => 26 | .ldVxK _ => 27 | .ldDtVx _ => 28 | .ldStVx _ => 29 | .addIdx _ => 30 | .ldF _ => 31
  | .ldB _ => 32 | .stM _ => 33 | .ldM _ => 34

/-- The four sets of illegal words of R99, in terms of the word's value. -/
def IllegalWord (w : Word) : Prop :=
  (w.toNat < 0x1000 ∧ w ≠ 0x00E0 ∧ w ≠ 0x00EE) ∨
  (w.toNat / 0x1000 = 8 ∧ w.toNat % 16 ∈ [8, 9, 0xA, 0xB, 0xC, 0xD, 0xF]) ∨
  (w.toNat / 0x1000 = 0xE ∧ w.toNat % 256 ∉ [0x9E, 0xA1]) ∨
  (w.toNat / 0x1000 = 0xF ∧ w.toNat % 256 ∉ [0x07, 0x0A, 0x15, 0x18, 0x1E, 0x29, 0x33, 0x55, 0x65])

/-! ## Faults -/

/-- A run is safe while no fault has been taken: "any fault is effectively fatal to the current run"
(60_exceptions.md R230). -/
def Safe (s : State) : Prop := s.fault = none

/-- The number of bytes an instruction reads or writes through I (20_memory.md R67). -/
def accessLen : Instr → Option Nat
  | .drw _ _ n => some n.toNat
  | .ldB _ => some 3
  | .stM x => some (x.val + 1)
  | .ldM x => some (x.val + 1)
  | _ => none

/-- The instruction that a fetch at pc gives: pc is in range and the word there is legal. -/
def Fetches (s : State) (i : Instr) : Prop := s.pc.toNat ≤ 4094 ∧ decode (fetchWord s) = .ok i

/-- The "when" and the "info" of each row of 60_exceptions.md R231, with the priority of R238: what
holds of the state before the step that raises the fault. -/
def FaultCondition : Fault → State → Prop
  | .pcOutOfRange p, s => s.pc.toNat > 4094 ∧ p = s.pc
  | .illegalInstruction w, s => s.pc.toNat ≤ 4094 ∧ w = fetchWord s ∧ IllegalWord w
  | .stackOverflow, s => (∃ nnn, Fetches s (.call nnn)) ∧ s.sp.val = 16
  | .stackUnderflow, s => Fetches s .ret ∧ s.sp.val = 0
  | .memOutOfRange a, s =>
      (∃ i len, Fetches s i ∧ accessLen i = some len ∧ 0 < len ∧ s.i.toNat + len - 1 > 0xFFF) ∧
      a.toNat = max s.i.toNat 0x1000
  | .keyIndexOutOfRange k, s =>
      (∃ x, (Fetches s (.skp x) ∨ Fetches s (.sknp x)) ∧ k = s.getV x) ∧ k.toNat > 15

/-! ## What an instruction may write -/

/-- The six instructions that write VF as a flag (10_state.md R22). -/
def writesFlag : Instr → Bool
  | .addR _ _ | .sub _ _ | .shr _ _ | .subn _ _ | .shl _ _ | .drw _ _ _ => true
  | _ => false

/-- The register an instruction names as its destination. -/
def destReg : Instr → Option Reg
  | .ldI x _ | .addI x _ | .ldR x _ | .orR x _ | .andR x _ | .xorR x _ | .addR x _ | .sub x _
  | .shr x _ | .subn x _ | .shl x _ | .rnd x _ | .ldVxDt x | .ldVxK x => some x
  | _ => none

/-- The registers an instruction may write: its destination, VF as a flag, and V0..Vx of the block
load (42_index_memory.md R176). -/
def mayWriteReg (i : Instr) (k : Reg) : Prop :=
  destReg i = some k ∨ (writesFlag i = true ∧ k = flagReg) ∨ ∃ x, i = .ldM x ∧ k ≤ x

/-- What an instruction with a result and a flag leaves in the registers (R140): the flag is written last, so it
is in VF for every x; the result is in Vx unless x = F; the other registers are unchanged. -/
def ResultThenFlag (s : State) (x : Reg) (result flag : Nat) (v' : Vector Byte 16) : Prop :=
  v'[flagReg].toNat = flag ∧ (x ≠ flagReg → v'[x].toNat = result) ∧
    ∀ k : Reg, k ≠ x → k ≠ flagReg → v'[k] = s.v[k]

/-! ## Display -/

/-- The pixel that a sprite of n rows at I, drawn with its origin at (top, left), puts on the cell
(row, col): false where the sprite does not cover the cell (43_display.md R192). -/
def spriteBit (s : State) (n top left row col : Nat) : Bool :=
  decide (top ≤ row ∧ row < top + n ∧ left ≤ col ∧ col < left + 8) &&
    (s.byteAt (s.i.toNat + (row - top))).getLsbD (7 - (col - left))

/-- The origin row of DRW (43_display.md R193). -/
def originRow (s : State) (y : Reg) : Nat := (s.getV y).toNat % 32
/-- The origin column of DRW (43_display.md R193). -/
def originCol (s : State) (x : Reg) : Nat := (s.getV x).toNat % 64

/-- The cell at a flat index of the bitmap that `Present` carries: `r * 64 + c` (60_exceptions.md
R250). -/
def flatCell (d : Bitmap) (k : Nat) : Bool := cell d (k / 64) (k % 64)

/-! ## The end of a run (70_reset_and_hazards.md R277) -/

/-- The instruction at pc is a jump to itself. -/
def Idle (s : State) : Prop := ∃ nnn, Fetches s (.jp nnn) ∧ absAddr nnn = s.pc

/-- The instruction at pc waits for a key and none is held (44_timers_keys.md R216). -/
def Waiting (s : State) : Prop :=
  ∃ x, Fetches s (.ldVxK x) ∧ ∀ k : Key, s.keyLine k.val = false

/-- The recommended end of a run: the instruction at pc jumps to itself, or a fault was taken. -/
def Ended (s : State) : Prop := Idle s ∨ s.fault ≠ none

/-! ## The invariant -/

/-- What every step keeps: the memory is in its canonical form (log entry 8); pc is at most 0x10FE, the largest
value any rule produces, so no arithmetic on it wraps (10_state.md R24); every return address on the
stack is the address after a CALL that was fetched, at most 4096; and the fault register, once set,
tells the truth about the state it stopped in (60_exceptions.md R231: faults are precise). -/
structure Inv (s : State) : Prop where
  memory : Memory.wf s.mem
  pcBound : s.pc.toNat ≤ 0x10FE
  returns : ∀ j : Fin 16, s.stack[j].toNat ≤ 4096
  faultTrue : ∀ f, s.fault = some f → FaultCondition f s

end Sys2Proof.Machine
end

