-- ==== Sys2Proof/Certificates/Slice0/Obligations.lean ====
section
/-! DEFINITION. The statements for the provers. A result statement answers `exec i s = .next { s with … }`:
every field that is not named there is unchanged, memory's every byte among them, so the statement is
the instruction's completion, its result and its frame at once. `exec` runs after the fetch, so pc is
already `pc0 + 2` in `s` (spec rule R91), and a faulting instruction puts it back to `s.pc - 2`. -/

open Sys2Proof Sys2Proof.Machine

/-! ## Encoding -/

/-- Every instruction, with every operand its fields admit, is what decoding its word gives (R96, R104). -/
def Obligations.DecodeOfEncodeIsTheInstruction : Prop := ∀ i : Instr, decode (encode i) = .ok i

/-- Every legal word is the word of the instruction it decodes to: no bit is dropped, the ignored
nibbles of R98, R149 and R151 among them (that they are operands is log entry 11). -/
def Obligations.EncodeOfDecodeIsTheWord : Prop :=
  ∀ (w : Word) (i : Instr), decode w = .ok i → encode i = w

/-- The decoder gives an instruction of row r exactly on the words that match row r of the opcode map
(R96); so no two rows overlap, and a word that matches none is illegal. -/
def Obligations.DecodeAgreesWithTheOpcodeMap : Prop :=
  ∀ (w : Word), ∀ row ∈ opcodeMap,
    (∃ i, decode w = .ok i ∧ rowOf i = row.1) ↔ w &&& row.2.2 = row.2.1

/-- The decoder rejects exactly the words of the four sets of R99. -/
def Obligations.IllegalWordsAreTheFourSets : Prop :=
  ∀ w : Word, (∀ i, decode w ≠ .ok i) ↔ IllegalWord w

/-- Words written out from the patterns of R96 (95_test_vectors.md) decode to the instructions they stand
for, in the byte order of R66. -/
def Obligations.WrittenOutWordsDecode : Prop :=
  decodeBytes [0x00, 0xEE] = .ok (.ret, []) ∧
  decodeBytes [0x12, 0xF0] = .ok (.jp 0x2F0, []) ∧
  decodeBytes [0x33, 0x2A] = .ok (.seI 3 0x2A, []) ∧
  decodeBytes [0x5A, 0xB7] = .ok (.seR 0xA 0xB 7, []) ∧
  decodeBytes [0x8A, 0xB6] = .ok (.shr 0xA 0xB, []) ∧
  decodeBytes [0xBF, 0xFF] = .ok (.jpV0 0xFFF, []) ∧
  decodeBytes [0xD0, 0x1F] = .ok (.drw 0 1 0xF, []) ∧
  decodeBytes [0xE2, 0x9E] = .ok (.skp 2, []) ∧
  decodeBytes [0xF2, 0x55] = .ok (.stM 2, [])

/-! ## The step -/

/-- When the next event is a `Step`, no fault is held, pc is at most 4094 and the word there decodes to i, the
step is `exec i` on the state with pc advanced by 2 before the instruction executes (R91, R245). The event
list is the model's (log entry 1). -/
def Obligations.StepRunsTheDecodedInstruction : Prop :=
  ∀ (s : State) (i : Instr), s.nextEvent = .step → Safe s → s.pc.toNat ≤ 4094 →
    decode (s.byteAt s.pc.toNat ++ s.byteAt (s.pc.toNat + 1)) = .ok i →
    step s = exec i { s with pc := s.pc + 2, events := s.events.tail }

/-- A step that begins with pc above 4094 raises PcOutOfRange(pc0): the fault register is all that changes
(R232). -/
def Obligations.FetchAbove4094RaisesPcOutOfRange : Prop :=
  ∀ s : State, s.nextEvent = .step → Safe s → s.pc.toNat > 4094 →
    step s = .next { s with fault := some (.pcOutOfRange s.pc), events := s.events.tail }

/-- A step that fetches an illegal word raises IllegalInstruction(w): memory is not changed and pc stays at
the illegal word (R233). -/
def Obligations.IllegalWordRaisesIllegalInstruction : Prop :=
  ∀ (s : State) (w : Word), s.nextEvent = .step → Safe s → s.pc.toNat ≤ 4094 →
    w = s.byteAt s.pc.toNat ++ s.byteAt (s.pc.toNat + 1) → IllegalWord w →
    step s = .next { s with fault := some (.illegalInstruction w), events := s.events.tail }

/-- After a fault every `Step` is a no-op; `Tick` and `KeyPress` still act (R239). -/
def Obligations.FaultedMachineIgnoresSteps : Prop :=
  ∀ s : State, s.fault ≠ none →
    (s.nextEvent = .step → step s = .next { s with events := s.events.tail }) ∧
    (s.nextEvent = .tick → step s = .next { s with
      dt := (if s.dt = 0 then 0 else s.dt - 1), st := (if s.st = 0 then 0 else s.st - 1), key := 0,
      events := s.events.tail }) ∧
    (∀ k, s.nextEvent = .keyPress k → ∃ key', step s = .next { s with key := key', events := s.events.tail } ∧
      ∀ j : Key, key'.getLsbD j.val = (decide (j = k) || s.keyLine j.val))

/-- A `Step` ends with a new fault F exactly when F's condition in the list of R231 holds of the state before
it, and the state is then the state before the step plus the fault register (precise), with the priority of
R238. -/
def Obligations.StepFaultsExactlyWhenListed : Prop :=
  ∀ (s : State) (f : Fault), s.nextEvent = .step → Safe s →
    ((∃ t, step s = .next t ∧ t.fault = some f) ↔ FaultCondition f s) ∧
    (FaultCondition f s → step s = .next { s with fault := some f, events := s.events.tail })

/-- The machine never stops: every step answers a next state, but for the one refusal, a boot image of more
than 3584 bytes (R230, R256). That a step is one event of a list is the model's choice (log entry 1). -/
def Obligations.StepStopsOnlyOnALongImage : Prop :=
  ∀ s : State, (∃ t, step s = .next t) ∨
    ∃ image, s.nextEvent = .boot image ∧ image.length > 3584 ∧ step s = .refused (.imageTooLong image.length)

/-- What `withFetchWord` places is what the very next step fetches and runs, and it changes no register but a pc
out of the fetch range, and no byte but the two at pc. That a program is loaded from outside the machine is the
model's account of R273 (log entry 4). -/
def Obligations.PlacedWordIsFetchedNext : Prop :=
  ∀ (s : State) (nbits w : Nat) (i : Instr), decodeTableWord nbits w = some i →
    ∃ f, s.withFetchWord nbits w = f ∧
      step f = exec i { f with pc := f.pc + 2 } ∧
      f.pc = (if s.pc.toNat > 4094 then 0x200 else s.pc) ∧
      f = { s with pc := f.pc, mem := f.mem, fault := none, events := [] } ∧
      ∀ a, a ≠ f.pc.toNat → a ≠ f.pc.toNat + 1 → f.byteAt a = s.byteAt a

/-! ## Control transfer -/

/-- JP nnn (R122). -/
def Obligations.JumpLoadsPc : Prop :=
  ∀ (nnn : Addr12) (s : State), decode (0x1#4 ++ nnn) = .ok (.jp nnn) ∧
    ∃ target : Word, target.toNat = nnn.toNat ∧ exec (.jp nnn) s = .next { s with pc := target }

/-- CALL nnn (R123): the return address is the pc already advanced; at sp = 16 StackOverflow and nothing else
changes. -/
def Obligations.CallPushesTheReturnAddress : Prop :=
  ∀ (nnn : Addr12) (s : State), decode (0x2#4 ++ nnn) = .ok (.call nnn) ∧
    (∀ h : s.sp.val < 16, ∃ (target : Word) (sp' : Fin 17), target.toNat = nnn.toNat ∧ sp'.val = s.sp.val + 1 ∧
      exec (.call nnn) s = .next { s with stack := s.stack.set s.sp.val s.pc h, sp := sp', pc := target }) ∧
    (s.sp.val = 16 → exec (.call nnn) s = .next { s with pc := s.pc - 2, fault := some .stackOverflow })

/-- RET (R121): sp goes down by one and pc receives the entry there; at sp = 0 StackUnderflow and nothing else
changes. -/
def Obligations.ReturnPopsTheStack : Prop :=
  ∀ s : State, decode 0x00EE = .ok .ret ∧
    (∀ j : Fin 16, s.sp.val = j.val + 1 →
      ∃ sp' : Fin 17, sp'.val = j.val ∧ exec .ret s = .next { s with sp := sp', pc := s.stack[j] }) ∧
    (s.sp.val = 0 → exec .ret s = .next { s with pc := s.pc - 2, fault := some .stackUnderflow })

/-- A RET that finds the stack as a CALL left it, wherever the subroutine has moved pc and whatever it did to
the registers, goes to the address after the CALL with sp as it was (R25, R121, R123). -/
def Obligations.ReturnUndoesCall : Prop :=
  ∀ (nnn : Addr12) (s : State), s.sp.val < 16 →
    ∃ t, exec (.call nnn) s = .next t ∧
      ∀ r : State, r.stack = t.stack → r.sp = t.sp →
        exec .ret r = .next { r with sp := s.sp, pc := s.pc }

/-- SE Vx, kk and SNE Vx, kk (R125, R126): 2 more on pc when the condition holds, and nothing else. -/
def Obligations.ImmediateSkips : Prop :=
  ∀ (x : Reg) (kk : Byte) (s : State),
    decode (0x3#4 ++ x.bits ++ kk) = .ok (.seI x kk) ∧ decode (0x4#4 ++ x.bits ++ kk) = .ok (.sneI x kk) ∧
    exec (.seI x kk) s = .next { s with pc := if (s.getV x).toNat = kk.toNat then s.pc + 2 else s.pc } ∧
    exec (.sneI x kk) s = .next { s with pc := if (s.getV x).toNat = kk.toNat then s.pc else s.pc + 2 }

/-- SE Vx, Vy and SNE Vx, Vy (R127, R128), whatever the ignored low nibble u holds (R98). -/
def Obligations.RegisterSkips : Prop :=
  ∀ (x y : Reg) (u : Nibble) (s : State),
    decode (0x5#4 ++ x.bits ++ y.bits ++ u) = .ok (.seR x y u) ∧
    decode (0x9#4 ++ x.bits ++ y.bits ++ u) = .ok (.sneR x y u) ∧
    exec (.seR x y u) s = .next { s with pc := if (s.getV x).toNat = (s.getV y).toNat then s.pc + 2 else s.pc } ∧
    exec (.sneR x y u) s = .next { s with pc := if (s.getV x).toNat = (s.getV y).toNat then s.pc else s.pc + 2 }

/-- JP V0, nnn (R129): the exact sum, neither wrapped nor reduced modulo 4096. -/
def Obligations.JumpWithOffset : Prop :=
  ∀ (nnn : Addr12) (s : State), decode (0xB#4 ++ nnn) = .ok (.jpV0 nnn) ∧
    ∃ target : Word, target.toNat = nnn.toNat + (s.getV 0).toNat ∧
      exec (.jpV0 nnn) s = .next { s with pc := target }

/-! ## Arithmetic -/

/-- LD Vx, kk (R141): VF is written only as a destination, when x = F. -/
def Obligations.LoadImmediate : Prop :=
  ∀ (x : Reg) (kk : Byte) (s : State), decode (0x6#4 ++ x.bits ++ kk) = .ok (.ldI x kk) ∧
    exec (.ldI x kk) s = .next { s with v := s.v.set x kk }

/-- ADD Vx, kk (R142): modulo 256, and no flag even when the sum passes 255. -/
def Obligations.AddImmediate : Prop :=
  ∀ (x : Reg) (kk : Byte) (s : State), decode (0x7#4 ++ x.bits ++ kk) = .ok (.addI x kk) ∧
    ∃ r : Byte, r.toNat = ((s.getV x).toNat + kk.toNat) % 256 ∧
      exec (.addI x kk) s = .next { s with v := s.v.set x r }

/-- LD, OR, AND and XOR Vx, Vy (R143 to R146), bit by bit: VF is not written as a flag (R153). -/
def Obligations.AssignmentAndLogic : Prop :=
  ∀ (x y : Reg) (s : State),
    decode (0x8#4 ++ x.bits ++ y.bits ++ 0x0#4) = .ok (.ldR x y) ∧
    decode (0x8#4 ++ x.bits ++ y.bits ++ 0x1#4) = .ok (.orR x y) ∧
    decode (0x8#4 ++ x.bits ++ y.bits ++ 0x2#4) = .ok (.andR x y) ∧
    decode (0x8#4 ++ x.bits ++ y.bits ++ 0x3#4) = .ok (.xorR x y) ∧
    exec (.ldR x y) s = .next { s with v := s.v.set x (s.getV y) } ∧
    (∃ r : Byte, (∀ j, r.getLsbD j = ((s.getV x).getLsbD j || (s.getV y).getLsbD j)) ∧
      exec (.orR x y) s = .next { s with v := s.v.set x r }) ∧
    (∃ r : Byte, (∀ j, r.getLsbD j = ((s.getV x).getLsbD j && (s.getV y).getLsbD j)) ∧
      exec (.andR x y) s = .next { s with v := s.v.set x r }) ∧
    (∃ r : Byte, (∀ j, r.getLsbD j = ((s.getV x).getLsbD j ^^ (s.getV y).getLsbD j)) ∧
      exec (.xorR x y) s = .next { s with v := s.v.set x r })

/-- ADD Vx, Vy (R147, R140): the sum modulo 256, VF 1 exactly when the exact sum exceeds 255. -/
def Obligations.AddWithCarryOut : Prop :=
  ∀ (x y : Reg) (s : State), decode (0x8#4 ++ x.bits ++ y.bits ++ 0x4#4) = .ok (.addR x y) ∧
    ∃ v', exec (.addR x y) s = .next { s with v := v' } ∧
      ResultThenFlag s x (((s.getV x).toNat + (s.getV y).toNat) % 256)
        (if (s.getV x).toNat + (s.getV y).toNat > 255 then 1 else 0) v'

/-- SUB and SUBN (R148, R150, R140): the difference modulo 256 in either order, VF 1 exactly when no borrow
occurs. -/
def Obligations.SubtractsWithNotBorrow : Prop :=
  ∀ (x y : Reg) (s : State),
    decode (0x8#4 ++ x.bits ++ y.bits ++ 0x5#4) = .ok (.sub x y) ∧
    decode (0x8#4 ++ x.bits ++ y.bits ++ 0x7#4) = .ok (.subn x y) ∧
    (∃ v', exec (.sub x y) s = .next { s with v := v' } ∧
      ResultThenFlag s x (((s.getV x).toNat + 256 - (s.getV y).toNat) % 256)
        (if (s.getV x).toNat ≥ (s.getV y).toNat then 1 else 0) v') ∧
    ∃ v', exec (.subn x y) s = .next { s with v := v' } ∧
      ResultThenFlag s x (((s.getV y).toNat + 256 - (s.getV x).toNat) % 256)
        (if (s.getV y).toNat ≥ (s.getV x).toNat then 1 else 0) v'

/-- SHR and SHL (R149, R151, R140): in place by one, whatever y is; VF is the bit shifted out, as 0 or 1. -/
def Obligations.ShiftsWithTheBitShiftedOut : Prop :=
  ∀ (x y : Reg) (s : State),
    decode (0x8#4 ++ x.bits ++ y.bits ++ 0x6#4) = .ok (.shr x y) ∧
    decode (0x8#4 ++ x.bits ++ y.bits ++ 0xE#4) = .ok (.shl x y) ∧
    (∃ v', exec (.shr x y) s = .next { s with v := v' } ∧
      ResultThenFlag s x ((s.getV x).toNat / 2) ((s.getV x).toNat % 2) v') ∧
    ∃ v', exec (.shl x y) s = .next { s with v := v' } ∧
      ResultThenFlag s x ((s.getV x).toNat * 2 % 256) ((s.getV x).toNat / 128) v'

/-- RND Vx, kk (R155): Vx receives the free byte under the mask, whatever the byte is, and a new byte is drawn
each time. That the bytes are numbered by a counter is the model's choice (log entry 2). -/
def Obligations.RandomByteUnderTheMask : Prop :=
  ∀ (x : Reg) (kk : Byte) (s : State), decode (0xC#4 ++ x.bits ++ kk) = .ok (.rnd x kk) ∧
    ∃ r : Byte, exec (.rnd x kk) s = .next { s with v := s.v.set x r, draws := s.draws + 1 } ∧
      ∀ j, r.getLsbD j = ((Config.rnd s.draws).getLsbD j && kk.getLsbD j)

/-! ## Index register and memory -/

/-- LD I, nnn (R170): the top four bits of I become 0. -/
def Obligations.SetIndexRegister : Prop :=
  ∀ (nnn : Addr12) (s : State), decode (0xA#4 ++ nnn) = .ok (.ldIdx nnn) ∧
    ∃ a : Word, a.toNat = nnn.toNat ∧ exec (.ldIdx nnn) s = .next { s with i := a }

/-- ADD I, Vx (R171): modulo 65536, VF is not written and passing 0xFFF is no fault. -/
def Obligations.IndexAdd : Prop :=
  ∀ (x : Reg) (s : State), decode (0xF#4 ++ x.bits ++ 0x1E#8) = .ok (.addIdx x) ∧
    ∃ a : Word, a.toNat = (s.i.toNat + (s.getV x).toNat) % 65536 ∧ exec (.addIdx x) s = .next { s with i := a }

/-- LD F, Vx (R172): five times the register's value, not masked to 4 bits. -/
def Obligations.GlyphAddress : Prop :=
  ∀ (x : Reg) (s : State), decode (0xF#4 ++ x.bits ++ 0x29#8) = .ok (.ldF x) ∧
    ∃ a : Word, a.toNat = 5 * (s.getV x).toNat ∧ exec (.ldF x) s = .next { s with i := a }

/-- LD B, Vx (R173): hundreds, tens and ones at I, I + 1, I + 2 and no other byte changed; MemOutOfRange and no
byte written when I + 2 is above 0xFFF. -/
def Obligations.DecimalDigitsToMemory : Prop :=
  ∀ (x : Reg) (s : State), decode (0xF#4 ++ x.bits ++ 0x33#8) = .ok (.ldB x) ∧
    (s.i.toNat + 2 ≤ 0xFFF → ∃ m, exec (.ldB x) s = .next { s with mem := m } ∧
      (Memory.read m s.i.toNat).toNat = (s.getV x).toNat / 100 ∧
      (Memory.read m (s.i.toNat + 1)).toNat = (s.getV x).toNat / 10 % 10 ∧
      (Memory.read m (s.i.toNat + 2)).toNat = (s.getV x).toNat % 10 ∧
      ∀ a, (a < s.i.toNat ∨ s.i.toNat + 2 < a) → Memory.read m a = s.byteAt a) ∧
    (s.i.toNat + 2 > 0xFFF → ∃ a : Word, a.toNat = max s.i.toNat 0x1000 ∧
      exec (.ldB x) s = .next { s with pc := s.pc - 2, fault := some (.memOutOfRange a) })

/-- LD [I], Vx (R175): V0..Vx inclusive at I.. and no other byte changed, I unchanged; MemOutOfRange and no byte
written when I + x is above 0xFFF. -/
def Obligations.BlockStoreToMemory : Prop :=
  ∀ (x : Reg) (s : State), decode (0xF#4 ++ x.bits ++ 0x55#8) = .ok (.stM x) ∧
    (s.i.toNat + x.val ≤ 0xFFF → ∃ m, exec (.stM x) s = .next { s with mem := m } ∧
      (∀ k : Reg, k ≤ x → Memory.read m (s.i.toNat + k.val) = s.getV k) ∧
      ∀ a, (a < s.i.toNat ∨ s.i.toNat + x.val < a) → Memory.read m a = s.byteAt a) ∧
    (s.i.toNat + x.val > 0xFFF → ∃ a : Word, a.toNat = max s.i.toNat 0x1000 ∧
      exec (.stM x) s = .next { s with pc := s.pc - 2, fault := some (.memOutOfRange a) })

/-- LD Vx, [I] (R176): V0..Vx inclusive from I.., the registers above x, I and memory unchanged; MemOutOfRange
and no register written when I + x is above 0xFFF. -/
def Obligations.BlockLoadFromMemory : Prop :=
  ∀ (x : Reg) (s : State), decode (0xF#4 ++ x.bits ++ 0x65#8) = .ok (.ldM x) ∧
    (s.i.toNat + x.val ≤ 0xFFF → ∃ v', exec (.ldM x) s = .next { s with v := v' } ∧
      (∀ k : Reg, k ≤ x → v'[k] = s.byteAt (s.i.toNat + k.val)) ∧ ∀ k : Reg, x < k → v'[k] = s.v[k]) ∧
    (s.i.toNat + x.val > 0xFFF → ∃ a : Word, a.toNat = max s.i.toNat 0x1000 ∧
      exec (.ldM x) s = .next { s with pc := s.pc - 2, fault := some (.memOutOfRange a) })

/-- Block store, then block load from any state with the stored memory and the same I, restores V0..Vx (R176's
round trip, an inference the spec marks as derived). -/
def Obligations.BlockStoreThenLoadRoundTrips : Prop :=
  ∀ (x : Reg) (s : State), s.i.toNat + x.val ≤ 0xFFF →
    ∃ t, exec (.stM x) s = .next t ∧
      ∀ r : State, r.mem = t.mem → r.i = s.i →
        ∃ u, exec (.ldM x) r = .next u ∧ ∀ k : Reg, u.getV k = if k ≤ x then s.getV k else r.getV k

/-- A store is seen by the next fetch: where a block store has written both bytes of a word, fetching there gives
the two registers stored (R73, an inference the spec marks as derived). -/
def Obligations.StoreIsSeenByTheNextFetch : Prop :=
  ∀ (x k : Reg) (s : State), s.i.toNat + x.val ≤ 0xFFF → k < x →
    ∃ t, exec (.stM x) s = .next t ∧
      ∀ p : Word, p.toNat = s.i.toNat + k.val → fetchWord { t with pc := p } = s.getV k ++ s.getV (k + 1)

/-- Two memories in the canonical form that read alike at every address are the same list (R60: a memory is its
bytes and nothing else; the list is the model's form of it, log entry 8). -/
def Obligations.CanonicalMemoriesWithTheSameBytesAreEqual : Prop :=
  ∀ m m' : List Host.Cell, Memory.wf m → Memory.wf m' → (∀ a, Memory.read m a = Memory.read m' a) → m = m'

/-! ## Display -/

/-- CLS (R191): every cell 0, and `Present` carries the clear display. -/
def Obligations.ClearDisplayClearsEveryCell : Prop :=
  ∀ s : State, decode 0x00E0 = .ok .cls ∧
    ∃ d, exec .cls s = .next { s with disp := d, presented := d :: s.presented } ∧
      ∀ row col, cell d row col = false

/-- DRW Vx, Vy, n (R192 to R195, R140): with the origin reduced modulo 64 and 32, every cell is its old value XOR
the sprite's pixel on it, pixels outside the screen are dropped, VF is 1 exactly when some pixel of 1 met a lit
cell, the other registers are unchanged, and `Present` carries the new display (R250). -/
def Obligations.DrawXorsTheSprite : Prop :=
  ∀ (x y : Reg) (n : Nibble) (s : State),
    decode (0xD#4 ++ x.bits ++ y.bits ++ n) = .ok (.drw x y n) ∧
    ((n = 0 ∨ s.i.toNat + n.toNat - 1 ≤ 0xFFF) →
      ∃ d v', exec (.drw x y n) s = .next { s with disp := d, v := v', presented := d :: s.presented } ∧
        (∀ row col, row < 32 → col < 64 → cell d row col =
          (cell s.disp row col ^^ spriteBit s n.toNat (originRow s y) (originCol s x) row col)) ∧
        (∀ k : Reg, k ≠ flagReg → v'[k] = s.v[k]) ∧
        (v'[flagReg] = 0 ∨ v'[flagReg] = 1) ∧
        (v'[flagReg] = 1 ↔ ∃ row col, row < 32 ∧ col < 64 ∧ cell s.disp row col = true ∧
          spriteBit s n.toNat (originRow s y) (originCol s x) row col = true)) ∧
    (n ≠ 0 → s.i.toNat + n.toNat - 1 > 0xFFF → ∃ a : Word, a.toNat = max s.i.toNat 0x1000 ∧
      exec (.drw x y n) s = .next { s with pc := s.pc - 2, fault := some (.memOutOfRange a) })

/-- DRW with n = 0 (R196, an inference the spec marks as derived), as a step: no range check, so a base I above
0xFFF is no fault; the display unchanged, VF 0, `Present` emitted. -/
def Obligations.DrawOfHeightZero : Prop :=
  ∀ (x y : Reg) (s : State), s.nextEvent = .step → Safe s → Fetches s (.drw x y 0) →
    ∃ t, step s = .next t ∧ t = { s with
      pc := s.pc + 2, v := s.v.set flagReg 0, presented := s.disp :: s.presented, events := s.events.tail }

/-- Drawing the same sprite twice restores every cell, and VF after the second draw is 1 exactly when some pixel of
1 met a cell that was 0 before the first (R197, an inference the spec marks as derived). -/
def Obligations.DrawTwiceRestoresTheDisplay : Prop :=
  ∀ (x y : Reg) (n : Nibble) (s : State) (p : Word), x ≠ flagReg → y ≠ flagReg →
    (n = 0 ∨ s.i.toNat + n.toNat - 1 ≤ 0xFFF) →
    ∃ t u, exec (.drw x y n) s = .next t ∧ exec (.drw x y n) { t with pc := p } = .next u ∧ u.disp = s.disp ∧
      (u.getV flagReg = 1 ↔ ∃ row col, row < 32 ∧ col < 64 ∧ cell s.disp row col = false ∧
        spriteBit s n.toNat (originRow s y) (originCol s x) row col = true)

/-! ## Timers and keys -/

/-- LD Vx, DT, LD DT, Vx and LD ST, Vx (R210, R211, R212), with the tone requested exactly while ST is not 0
(R251). -/
def Obligations.TimerReadAndWrite : Prop :=
  ∀ (x : Reg) (s : State),
    decode (0xF#4 ++ x.bits ++ 0x07#8) = .ok (.ldVxDt x) ∧
    decode (0xF#4 ++ x.bits ++ 0x15#8) = .ok (.ldDtVx x) ∧
    decode (0xF#4 ++ x.bits ++ 0x18#8) = .ok (.ldStVx x) ∧
    exec (.ldVxDt x) s = .next { s with v := s.v.set x s.dt } ∧
    exec (.ldDtVx x) s = .next { s with dt := s.v[x] } ∧
    ∃ t, exec (.ldStVx x) s = .next t ∧ t = { s with st := s.v[x] } ∧ (t.toneRequest = true ↔ (s.v[x]).toNat ≠ 0)

/-- SKP Vx and SKNP Vx (R213, R214): the skip contract on key line V[x]; above 15 KeyIndexOutOfRange and nothing
else changes (R237). -/
def Obligations.KeyStateSkips : Prop :=
  ∀ (x : Reg) (s : State),
    decode (0xE#4 ++ x.bits ++ 0x9E#8) = .ok (.skp x) ∧ decode (0xE#4 ++ x.bits ++ 0xA1#8) = .ok (.sknp x) ∧
    (∀ k : Key, (s.getV x).toNat = k.val →
      exec (.skp x) s = .next { s with pc := if s.key.getLsbD k.val then s.pc + 2 else s.pc } ∧
      exec (.sknp x) s = .next { s with pc := if s.key.getLsbD k.val then s.pc else s.pc + 2 }) ∧
    ((s.getV x).toNat > 15 →
      exec (.skp x) s = .next { s with pc := s.pc - 2, fault := some (.keyIndexOutOfRange (s.getV x)) } ∧
      exec (.sknp x) s = .next { s with pc := s.pc - 2, fault := some (.keyIndexOutOfRange (s.getV x)) })

/-- LD Vx, K (R215): the least held key goes to Vx and stays held; with none held, pc goes back to the instruction
and nothing else changes. -/
def Obligations.WaitForKey : Prop :=
  ∀ (x : Reg) (s : State), decode (0xF#4 ++ x.bits ++ 0x0A#8) = .ok (.ldVxK x) ∧
    (∀ k : Key, s.key.getLsbD k.val = true → (∀ j : Key, j < k → s.key.getLsbD j.val = false) →
      ∃ b : Byte, b.toNat = k.val ∧ exec (.ldVxK x) s = .next { s with v := s.v.set x b }) ∧
    ((∀ k : Key, s.key.getLsbD k.val = false) → exec (.ldVxK x) s = .next { s with pc := s.pc - 2 })

/-- With no event but `Step`s, an engine that waits for a key, or idles in a jump to itself, or has faulted, is in
the same state after any number of steps (R216, R239, R277). -/
def Obligations.WaitingIdleAndFaultedRunsStandStill : Prop :=
  ∀ (n : Nat) (s : State), s.events = [] → (Waiting s ∨ Ended s) → Host.Core.run Sys2Proof.core n s = .next s

/-! ## Events, reset and load -/

/-- `Tick` (R246): each timer down by 1 unless it is 0, all key lines 0, and nothing else. -/
def Obligations.TickCountsDownAndClearsKeys : Prop :=
  ∀ s : State, s.nextEvent = .tick →
    ∃ (dt' st' : Byte) (key' : BitVec 16),
      step s = .next { s with dt := dt', st := st', key := key', events := s.events.tail } ∧
      dt'.toNat = s.dt.toNat - 1 ∧ st'.toNat = s.st.toNat - 1 ∧ ∀ k, key'.getLsbD k = false

/-- `KeyPress(k)` (R247): key line k is 1 and nothing else changes. -/
def Obligations.KeyPressSetsItsLine : Prop :=
  ∀ (s : State) (k : Key), s.nextEvent = .keyPress k →
    ∃ key', step s = .next { s with key := key', events := s.events.tail } ∧
      ∀ j : Key, key'.getLsbD j.val = (decide (j = k) || s.key.getLsbD j.val)

/-- `Reset` and then `Load(image)` (R270, R273): the image verbatim from 0x200, every other byte and every piece of
state at its reset value; the model's own records go on (log entry 10). An image of more than 3584 bytes is refused
(R256). -/
def Obligations.BootResetsAndLoadsTheImage : Prop :=
  ∀ (s : State) (image : List Byte), s.nextEvent = .boot image →
    (image.length ≤ 3584 → ∃ m, step s = .next { State.reset with
        mem := m, draws := s.draws, events := s.events.tail, presented := s.presented } ∧
      (∀ (k : Nat) (h : k < image.length), Memory.read m (0x200 + k) = image[k]) ∧
      ∀ a, (a < 0x200 ∨ 0x200 + image.length ≤ a) → Memory.read m a = State.reset.byteAt a) ∧
    (image.length > 3584 → step s = .refused (.imageTooLong image.length))

/-- The reset values of R34: the glyph table of R62 in memory and zeros above it, pc = 0x200, and every other piece
of state zero, the display clear, no fault. -/
def Obligations.ResetState : Prop :=
  (List.range 80).map State.reset.byteAt =
    [0xF0, 0x90, 0x90, 0x90, 0xF0, 0x20, 0x60, 0x20, 0x20, 0x70, 0xF0, 0x10, 0xF0, 0x80, 0xF0, 0xF0, 0x10, 0xF0, 0x10, 0xF0] ++
    [0x90, 0x90, 0xF0, 0x10, 0x10, 0xF0, 0x80, 0xF0, 0x10, 0xF0, 0xF0, 0x80, 0xF0, 0x90, 0xF0, 0xF0, 0x10, 0x20, 0x40, 0x40] ++
    [0xF0, 0x90, 0xF0, 0x90, 0xF0, 0xF0, 0x90, 0xF0, 0x10, 0xF0, 0xF0, 0x90, 0xF0, 0x90, 0x90, 0xE0, 0x90, 0xE0, 0x90, 0xE0] ++
    [0xF0, 0x80, 0x80, 0x80, 0xF0, 0xE0, 0x90, 0x90, 0x90, 0xE0, 0xF0, 0x80, 0xF0, 0x80, 0xF0, 0xF0, 0x80, 0xF0, 0x80, 0x80] ∧
  (∀ a, 0x50 ≤ a → a < 4096 → State.reset.byteAt a = 0) ∧ State.reset.pc.toNat = 0x200 ∧
  (∀ k : Reg, State.reset.getV k = 0) ∧ State.reset.i = 0 ∧ State.reset.sp = 0 ∧
  (∀ j : Fin 16, State.reset.stack[j] = 0) ∧ (∀ row col, cell State.reset.disp row col = false) ∧
  State.reset.dt = 0 ∧ State.reset.st = 0 ∧ (∀ k : Key, State.reset.keyLine k.val = false) ∧ State.reset.fault = none

/-! ## Rules of the whole machine -/

/-- The decoder, the step and every event keep the invariant: memory in its canonical form, pc at most 0x10FE so that
no arithmetic on it wraps (R24), return addresses at most 4096, and a fault register that tells the truth about the
state it stopped in (R231). The canonical form is the model's form of memory (log entry 8), and that a step takes one
event of a list is the model's choice (log entry 1). -/
def Obligations.EveryStepKeepsTheInvariant : Prop := ∀ s t : State, Inv s → step s = .next t → Inv t

/-- The invariant holds of the reset state of R34. Its clause on memory's canonical form is about the model's form of
memory (log entry 8). -/
def Obligations.ResetMeetsTheInvariant : Prop := Inv State.reset

/-- No instruction changes a register but its destination, VF where it is one of the six that write the flag, and
V0..Vx of the block load (R22, R153, R176). -/
def Obligations.RegistersChangeOnlyWhereNamed : Prop :=
  ∀ (i : Instr) (s t : State) (k : Reg), exec i s = .next t → ¬ mayWriteReg i k → t.getV k = s.getV k

/-- Only CALL and RET reach the call stack and its pointer (R26). -/
def Obligations.OnlyCallAndReturnReachTheStack : Prop :=
  ∀ (i : Instr) (s t : State), exec i s = .next t → i ≠ .ret → (∀ nnn, i ≠ .call nnn) →
    t.stack = s.stack ∧ t.sp = s.sp

/-- Only CLS and DRW write the display, and only they emit `Present` (R27, R190, R250). -/
def Obligations.OnlyClearAndDrawReachTheDisplay : Prop :=
  ∀ (i : Instr) (s t : State), exec i s = .next t → i ≠ .cls → (∀ x y n, i ≠ .drw x y n) →
    t.disp = s.disp ∧ t.presented = s.presented

/-- Only LD B and LD [I] write memory (R67): under any other instruction every byte reads as before. -/
def Obligations.OnlyDigitsAndBlockStoreWriteMemory : Prop :=
  ∀ (i : Instr) (s t : State), exec i s = .next t → (∀ x, i ≠ .ldB x) → (∀ x, i ≠ .stM x) →
    ∀ a, t.byteAt a = s.byteAt a

/-- No instruction writes a key line (R30); DT is written by LD DT, Vx only (R28), ST by LD ST, Vx only (R29), I by
LD I, ADD I and LD F only (R23). -/
def Obligations.TimersKeysAndIndexChangeOnlyWhereNamed : Prop :=
  ∀ (i : Instr) (s t : State), exec i s = .next t →
    t.key = s.key ∧ ((∀ x, i ≠ .ldDtVx x) → t.dt = s.dt) ∧ ((∀ x, i ≠ .ldStVx x) → t.st = s.st) ∧
    ((∀ nnn, i ≠ .ldIdx nnn) → (∀ x, i ≠ .addIdx x) → (∀ x, i ≠ .ldF x) → t.i = s.i)

/-- No instruction reads the sound timer (R29): what an instruction does is the same whatever ST holds, and ST is then
what it was unless the instruction is LD ST, Vx. -/
def Obligations.SoundTimerIsNeverRead : Prop :=
  ∀ (i : Instr) (s t : State) (b : Byte), exec i s = .next t →
    exec i { s with st := b } = .next { t with st := if ∃ x, i = .ldStVx x then t.st else b }

/-- The stack entries at index sp and above cannot be observed (R25, an inference the spec marks as derived): two
states that differ in them only are taken by every instruction to two states that differ in them only. -/
def Obligations.DeadStackEntriesAreUnobservable : Prop :=
  ∀ (i : Instr) (s t : State) (stack' : Vector Word 16), exec i s = .next t →
    (∀ j : Fin 16, j.val < s.sp.val → stack'[j] = s.stack[j]) →
    ∃ stack'', exec i { s with stack := stack' } = .next { t with stack := stack'' } ∧
      ∀ j : Fin 16, j.val < t.sp.val → stack''[j] = t.stack[j]
end

