-- ==== Sys2Proof/Laws/Memory.lean ====
section
/-! SUPPORT. The laws of memory: reading after writing, other addresses untouched, and the canonical form
kept by every write. -/

namespace Sys2Proof.Machine

/-! ## What inserting and dropping a cell do to reads -/

theorem read_filter_self (m : List Host.Cell) (a : Nat) :
    Memory.read (m.filter fun c => c.1 != a) a = resetByte a := by
  induction m with
  | nil => rfl
  | cons c m ih =>
    by_cases h : c.1 = a
    · simpa [h] using ih
    · simp [h, Memory.read, ih]

theorem read_filter_other (m : List Host.Cell) (a x : Nat) (hx : x ≠ a) :
    Memory.read (m.filter fun c => c.1 != a) x = Memory.read m x := by
  induction m with
  | nil => rfl
  | cons c m ih =>
    by_cases h : c.1 = a
    · have : ¬ a = x := fun e => hx e.symm
      simp [h, Memory.read, ih, this]
    · simp [h, Memory.read, ih]

theorem read_insert_self (c : Host.Cell) (m : List Host.Cell) (h : ∀ d ∈ m, d.1 ≠ c.1) :
    Memory.read (Memory.insert c m) c.1 = c.2 := by
  induction m with
  | nil => simp [Memory.insert, Memory.read]
  | cons d m ih =>
    unfold Memory.insert
    split
    · simp [Memory.read]
    · simp [Memory.read, h d (by simp), ih fun e he => h e (by simp [he])]

theorem read_insert_other (c : Host.Cell) (m : List Host.Cell) (x : Nat) (hx : c.1 ≠ x) :
    Memory.read (Memory.insert c m) x = Memory.read m x := by
  induction m with
  | nil => simp [Memory.insert, Memory.read, hx]
  | cons d m ih =>
    unfold Memory.insert
    split
    · simp [Memory.read, hx]
    · simp [Memory.read, ih]

/-! ## One byte -/

/-- A read after a write to the same address gives the byte written. -/
theorem read_write_self (m : List Host.Cell) (a : Nat) (b : Byte) (h : a < 4096) :
    Memory.read (Memory.write m a b) a = b := by
  simp only [Memory.write, h, if_true]
  split
  · rename_i e; rw [read_filter_self, e]
  · exact read_insert_self (a, b) _ (by simp)

/-- A write leaves every other address alone. -/
theorem read_write_other (m : List Host.Cell) (a x : Nat) (b : Byte) (h : x ≠ a) :
    Memory.read (Memory.write m a b) x = Memory.read m x := by
  unfold Memory.write
  split
  · dsimp only
    split
    · exact read_filter_other m a x h
    · rw [read_insert_other _ _ _ (Ne.symm h), read_filter_other m a x h]
  · rfl

/-! ## Several bytes -/

/-- Reading outside the bytes written gives what was there. -/
theorem read_writeList_outside (m : List Host.Cell) (a x : Nat) (bs : List Byte)
    (h : x < a ∨ a + bs.length ≤ x) : Memory.read (Memory.writeList m a bs) x = Memory.read m x := by
  induction bs generalizing m a with
  | nil => rfl
  | cons b bs ih =>
    simp only [List.length_cons] at h
    rw [Memory.writeList, ih _ _ (by omega), read_write_other _ _ _ _ (by omega)]

/-- Reading inside the bytes written gives the byte written there. -/
theorem read_writeList_inside (m : List Host.Cell) (a : Nat) (bs : List Byte) (k : Nat)
    (hk : k < bs.length) (h : a + bs.length ≤ 4096) :
    Memory.read (Memory.writeList m a bs) (a + k) = bs[k] := by
  induction bs generalizing m a k with
  | nil => simp at hk
  | cons b bs ih =>
    simp only [List.length_cons] at h hk
    rw [Memory.writeList]
    cases k with
    | zero =>
      rw [read_writeList_outside _ _ _ _ (by omega)]
      exact read_write_self m a b (by omega)
    | succ k =>
      have := ih (Memory.write m a b) (a + 1) k (by omega) (by omega)
      simpa [Nat.add_assoc, Nat.add_comm 1 k] using this

/-! ## The canonical form -/

theorem mem_insert (c d : Host.Cell) (m : List Host.Cell) : d ∈ Memory.insert c m ↔ d = c ∨ d ∈ m := by
  induction m with
  | nil => simp [Memory.insert]
  | cons e m ih =>
    unfold Memory.insert
    split
    · simp
    · simp only [List.mem_cons, ih]; tauto

theorem insert_sorted (c : Host.Cell) (m : List Host.Cell) (hm : m.Pairwise fun c d => c.1 < d.1)
    (hc : ∀ d ∈ m, d.1 ≠ c.1) : (Memory.insert c m).Pairwise fun c d => c.1 < d.1 := by
  induction m with
  | nil => simp [Memory.insert]
  | cons e m ih =>
    have ⟨he, hm'⟩ := List.pairwise_cons.1 hm
    unfold Memory.insert
    split
    · rename_i h
      refine List.pairwise_cons.2 ⟨fun d hd => ?_, hm⟩
      rcases List.mem_cons.1 hd with rfl | hd
      · exact h
      · exact Nat.lt_trans h (he d hd)
    · rename_i h
      refine List.pairwise_cons.2 ⟨fun d hd => ?_, ih hm' fun d hd => hc d (by simp [hd])⟩
      rcases (mem_insert c d m).1 hd with rfl | hd
      · have := hc e (by simp); omega
      · exact he d hd

/-- The empty list of cells is in canonical form. -/
theorem wf_nil : Memory.wf [] := by simp [Memory.wf]

/-- Writing a byte keeps the canonical form. -/
theorem wf_write (m : List Host.Cell) (a : Nat) (b : Byte) (h : Memory.wf m) :
    Memory.wf (Memory.write m a b) := by
  obtain ⟨hs, hc⟩ := h
  have hf : Memory.wf (m.filter fun c => c.1 != a) :=
    ⟨hs.filter _, fun c hm => hc c (List.mem_filter.1 hm).1⟩
  unfold Memory.write
  split
  · rename_i ha
    dsimp only
    split
    · exact hf
    · rename_i hb
      refine ⟨insert_sorted _ _ hf.1 (by simp), fun c hm => ?_⟩
      rcases (mem_insert _ _ _).1 hm with rfl | hm
      · exact ⟨ha, hb⟩
      · exact hf.2 c hm
  · exact ⟨hs, hc⟩

/-- Writing several bytes keeps the canonical form. -/
theorem wf_writeList (m : List Host.Cell) (a : Nat) (bs : List Byte) (h : Memory.wf m) :
    Memory.wf (Memory.writeList m a bs) := by
  induction bs generalizing m a with
  | nil => exact h
  | cons b bs ih => exact ih _ _ (wf_write m a b h)

end Sys2Proof.Machine
end

