-- ==== Sys2Proof/Laws/State.lean ====
section
/-! SUPPORT. One lemma per field per update, true by rfl: no later proof unfolds a record update. -/

namespace Sys2Proof.Machine

variable (s : State)

/-! ## setV -/

@[simp] theorem setV_v (x : Reg) (b : Byte) : (s.setV x b).v = s.v.set x b := rfl
@[simp] theorem setV_i (x : Reg) (b : Byte) : (s.setV x b).i = s.i := rfl
@[simp] theorem setV_pc (x : Reg) (b : Byte) : (s.setV x b).pc = s.pc := rfl
@[simp] theorem setV_stack (x : Reg) (b : Byte) : (s.setV x b).stack = s.stack := rfl
@[simp] theorem setV_sp (x : Reg) (b : Byte) : (s.setV x b).sp = s.sp := rfl
@[simp] theorem setV_disp (x : Reg) (b : Byte) : (s.setV x b).disp = s.disp := rfl
@[simp] theorem setV_dt (x : Reg) (b : Byte) : (s.setV x b).dt = s.dt := rfl
@[simp] theorem setV_st (x : Reg) (b : Byte) : (s.setV x b).st = s.st := rfl
@[simp] theorem setV_key (x : Reg) (b : Byte) : (s.setV x b).key = s.key := rfl
@[simp] theorem setV_mem (x : Reg) (b : Byte) : (s.setV x b).mem = s.mem := rfl
@[simp] theorem setV_fault (x : Reg) (b : Byte) : (s.setV x b).fault = s.fault := rfl
@[simp] theorem setV_draws (x : Reg) (b : Byte) : (s.setV x b).draws = s.draws := rfl
@[simp] theorem setV_events (x : Reg) (b : Byte) : (s.setV x b).events = s.events := rfl
@[simp] theorem setV_presented (x : Reg) (b : Byte) : (s.setV x b).presented = s.presented := rfl

/-! ## setResultFlag -/

@[simp] theorem setResultFlag_v (x : Reg) (r f : Byte) : (s.setResultFlag x r f).v = (s.v.set x r).set flagReg f := rfl
@[simp] theorem setResultFlag_i (x : Reg) (r f : Byte) : (s.setResultFlag x r f).i = s.i := rfl
@[simp] theorem setResultFlag_pc (x : Reg) (r f : Byte) : (s.setResultFlag x r f).pc = s.pc := rfl
@[simp] theorem setResultFlag_stack (x : Reg) (r f : Byte) : (s.setResultFlag x r f).stack = s.stack := rfl
@[simp] theorem setResultFlag_sp (x : Reg) (r f : Byte) : (s.setResultFlag x r f).sp = s.sp := rfl
@[simp] theorem setResultFlag_disp (x : Reg) (r f : Byte) : (s.setResultFlag x r f).disp = s.disp := rfl
@[simp] theorem setResultFlag_dt (x : Reg) (r f : Byte) : (s.setResultFlag x r f).dt = s.dt := rfl
@[simp] theorem setResultFlag_st (x : Reg) (r f : Byte) : (s.setResultFlag x r f).st = s.st := rfl
@[simp] theorem setResultFlag_key (x : Reg) (r f : Byte) : (s.setResultFlag x r f).key = s.key := rfl
@[simp] theorem setResultFlag_mem (x : Reg) (r f : Byte) : (s.setResultFlag x r f).mem = s.mem := rfl
@[simp] theorem setResultFlag_fault (x : Reg) (r f : Byte) : (s.setResultFlag x r f).fault = s.fault := rfl
@[simp] theorem setResultFlag_draws (x : Reg) (r f : Byte) : (s.setResultFlag x r f).draws = s.draws := rfl
@[simp] theorem setResultFlag_events (x : Reg) (r f : Byte) : (s.setResultFlag x r f).events = s.events := rfl
@[simp] theorem setResultFlag_presented (x : Reg) (r f : Byte) : (s.setResultFlag x r f).presented = s.presented := rfl

/-! ## setI -/

@[simp] theorem setI_v (a : Word) : (s.setI a).v = s.v := rfl
@[simp] theorem setI_i (a : Word) : (s.setI a).i = a := rfl
@[simp] theorem setI_pc (a : Word) : (s.setI a).pc = s.pc := rfl
@[simp] theorem setI_stack (a : Word) : (s.setI a).stack = s.stack := rfl
@[simp] theorem setI_sp (a : Word) : (s.setI a).sp = s.sp := rfl
@[simp] theorem setI_disp (a : Word) : (s.setI a).disp = s.disp := rfl
@[simp] theorem setI_dt (a : Word) : (s.setI a).dt = s.dt := rfl
@[simp] theorem setI_st (a : Word) : (s.setI a).st = s.st := rfl
@[simp] theorem setI_key (a : Word) : (s.setI a).key = s.key := rfl
@[simp] theorem setI_mem (a : Word) : (s.setI a).mem = s.mem := rfl
@[simp] theorem setI_fault (a : Word) : (s.setI a).fault = s.fault := rfl
@[simp] theorem setI_draws (a : Word) : (s.setI a).draws = s.draws := rfl
@[simp] theorem setI_events (a : Word) : (s.setI a).events = s.events := rfl
@[simp] theorem setI_presented (a : Word) : (s.setI a).presented = s.presented := rfl

/-! ## setPc -/

@[simp] theorem setPc_v (a : Word) : (s.setPc a).v = s.v := rfl
@[simp] theorem setPc_i (a : Word) : (s.setPc a).i = s.i := rfl
@[simp] theorem setPc_pc (a : Word) : (s.setPc a).pc = a := rfl
@[simp] theorem setPc_stack (a : Word) : (s.setPc a).stack = s.stack := rfl
@[simp] theorem setPc_sp (a : Word) : (s.setPc a).sp = s.sp := rfl
@[simp] theorem setPc_disp (a : Word) : (s.setPc a).disp = s.disp := rfl
@[simp] theorem setPc_dt (a : Word) : (s.setPc a).dt = s.dt := rfl
@[simp] theorem setPc_st (a : Word) : (s.setPc a).st = s.st := rfl
@[simp] theorem setPc_key (a : Word) : (s.setPc a).key = s.key := rfl
@[simp] theorem setPc_mem (a : Word) : (s.setPc a).mem = s.mem := rfl
@[simp] theorem setPc_fault (a : Word) : (s.setPc a).fault = s.fault := rfl
@[simp] theorem setPc_draws (a : Word) : (s.setPc a).draws = s.draws := rfl
@[simp] theorem setPc_events (a : Word) : (s.setPc a).events = s.events := rfl
@[simp] theorem setPc_presented (a : Word) : (s.setPc a).presented = s.presented := rfl

/-! ## setDt -/

@[simp] theorem setDt_v (b : Byte) : (s.setDt b).v = s.v := rfl
@[simp] theorem setDt_i (b : Byte) : (s.setDt b).i = s.i := rfl
@[simp] theorem setDt_pc (b : Byte) : (s.setDt b).pc = s.pc := rfl
@[simp] theorem setDt_stack (b : Byte) : (s.setDt b).stack = s.stack := rfl
@[simp] theorem setDt_sp (b : Byte) : (s.setDt b).sp = s.sp := rfl
@[simp] theorem setDt_disp (b : Byte) : (s.setDt b).disp = s.disp := rfl
@[simp] theorem setDt_dt (b : Byte) : (s.setDt b).dt = b := rfl
@[simp] theorem setDt_st (b : Byte) : (s.setDt b).st = s.st := rfl
@[simp] theorem setDt_key (b : Byte) : (s.setDt b).key = s.key := rfl
@[simp] theorem setDt_mem (b : Byte) : (s.setDt b).mem = s.mem := rfl
@[simp] theorem setDt_fault (b : Byte) : (s.setDt b).fault = s.fault := rfl
@[simp] theorem setDt_draws (b : Byte) : (s.setDt b).draws = s.draws := rfl
@[simp] theorem setDt_events (b : Byte) : (s.setDt b).events = s.events := rfl
@[simp] theorem setDt_presented (b : Byte) : (s.setDt b).presented = s.presented := rfl

/-! ## setSt -/

@[simp] theorem setSt_v (b : Byte) : (s.setSt b).v = s.v := rfl
@[simp] theorem setSt_i (b : Byte) : (s.setSt b).i = s.i := rfl
@[simp] theorem setSt_pc (b : Byte) : (s.setSt b).pc = s.pc := rfl
@[simp] theorem setSt_stack (b : Byte) : (s.setSt b).stack = s.stack := rfl
@[simp] theorem setSt_sp (b : Byte) : (s.setSt b).sp = s.sp := rfl
@[simp] theorem setSt_disp (b : Byte) : (s.setSt b).disp = s.disp := rfl
@[simp] theorem setSt_dt (b : Byte) : (s.setSt b).dt = s.dt := rfl
@[simp] theorem setSt_st (b : Byte) : (s.setSt b).st = b := rfl
@[simp] theorem setSt_key (b : Byte) : (s.setSt b).key = s.key := rfl
@[simp] theorem setSt_mem (b : Byte) : (s.setSt b).mem = s.mem := rfl
@[simp] theorem setSt_fault (b : Byte) : (s.setSt b).fault = s.fault := rfl
@[simp] theorem setSt_draws (b : Byte) : (s.setSt b).draws = s.draws := rfl
@[simp] theorem setSt_events (b : Byte) : (s.setSt b).events = s.events := rfl
@[simp] theorem setSt_presented (b : Byte) : (s.setSt b).presented = s.presented := rfl

/-! ## emitPresent -/

@[simp] theorem emitPresent_v : s.emitPresent.v = s.v := rfl
@[simp] theorem emitPresent_i : s.emitPresent.i = s.i := rfl
@[simp] theorem emitPresent_pc : s.emitPresent.pc = s.pc := rfl
@[simp] theorem emitPresent_stack : s.emitPresent.stack = s.stack := rfl
@[simp] theorem emitPresent_sp : s.emitPresent.sp = s.sp := rfl
@[simp] theorem emitPresent_disp : s.emitPresent.disp = s.disp := rfl
@[simp] theorem emitPresent_dt : s.emitPresent.dt = s.dt := rfl
@[simp] theorem emitPresent_st : s.emitPresent.st = s.st := rfl
@[simp] theorem emitPresent_key : s.emitPresent.key = s.key := rfl
@[simp] theorem emitPresent_mem : s.emitPresent.mem = s.mem := rfl
@[simp] theorem emitPresent_fault : s.emitPresent.fault = s.fault := rfl
@[simp] theorem emitPresent_draws : s.emitPresent.draws = s.draws := rfl
@[simp] theorem emitPresent_events : s.emitPresent.events = s.events := rfl
@[simp] theorem emitPresent_presented : s.emitPresent.presented = s.disp :: s.presented := rfl

/-! ## writeBytes -/

@[simp] theorem writeBytes_v (a : Nat) (bs : List Byte) : (s.writeBytes a bs).v = s.v := rfl
@[simp] theorem writeBytes_i (a : Nat) (bs : List Byte) : (s.writeBytes a bs).i = s.i := rfl
@[simp] theorem writeBytes_pc (a : Nat) (bs : List Byte) : (s.writeBytes a bs).pc = s.pc := rfl
@[simp] theorem writeBytes_stack (a : Nat) (bs : List Byte) : (s.writeBytes a bs).stack = s.stack := rfl
@[simp] theorem writeBytes_sp (a : Nat) (bs : List Byte) : (s.writeBytes a bs).sp = s.sp := rfl
@[simp] theorem writeBytes_disp (a : Nat) (bs : List Byte) : (s.writeBytes a bs).disp = s.disp := rfl
@[simp] theorem writeBytes_dt (a : Nat) (bs : List Byte) : (s.writeBytes a bs).dt = s.dt := rfl
@[simp] theorem writeBytes_st (a : Nat) (bs : List Byte) : (s.writeBytes a bs).st = s.st := rfl
@[simp] theorem writeBytes_key (a : Nat) (bs : List Byte) : (s.writeBytes a bs).key = s.key := rfl
@[simp] theorem writeBytes_mem (a : Nat) (bs : List Byte) : (s.writeBytes a bs).mem = Memory.writeList s.mem a bs := rfl
@[simp] theorem writeBytes_fault (a : Nat) (bs : List Byte) : (s.writeBytes a bs).fault = s.fault := rfl
@[simp] theorem writeBytes_draws (a : Nat) (bs : List Byte) : (s.writeBytes a bs).draws = s.draws := rfl
@[simp] theorem writeBytes_events (a : Nat) (bs : List Byte) : (s.writeBytes a bs).events = s.events := rfl
@[simp] theorem writeBytes_presented (a : Nat) (bs : List Byte) : (s.writeBytes a bs).presented = s.presented := rfl

/-! ## dropEvent -/

@[simp] theorem dropEvent_v : s.dropEvent.v = s.v := rfl
@[simp] theorem dropEvent_i : s.dropEvent.i = s.i := rfl
@[simp] theorem dropEvent_pc : s.dropEvent.pc = s.pc := rfl
@[simp] theorem dropEvent_stack : s.dropEvent.stack = s.stack := rfl
@[simp] theorem dropEvent_sp : s.dropEvent.sp = s.sp := rfl
@[simp] theorem dropEvent_disp : s.dropEvent.disp = s.disp := rfl
@[simp] theorem dropEvent_dt : s.dropEvent.dt = s.dt := rfl
@[simp] theorem dropEvent_st : s.dropEvent.st = s.st := rfl
@[simp] theorem dropEvent_key : s.dropEvent.key = s.key := rfl
@[simp] theorem dropEvent_mem : s.dropEvent.mem = s.mem := rfl
@[simp] theorem dropEvent_fault : s.dropEvent.fault = s.fault := rfl
@[simp] theorem dropEvent_draws : s.dropEvent.draws = s.draws := rfl
@[simp] theorem dropEvent_events : s.dropEvent.events = s.events.tail := rfl
@[simp] theorem dropEvent_presented : s.dropEvent.presented = s.presented := rfl

/-! ## tick -/

@[simp] theorem tick_v : (tick s).v = s.v := rfl
@[simp] theorem tick_i : (tick s).i = s.i := rfl
@[simp] theorem tick_pc : (tick s).pc = s.pc := rfl
@[simp] theorem tick_stack : (tick s).stack = s.stack := rfl
@[simp] theorem tick_sp : (tick s).sp = s.sp := rfl
@[simp] theorem tick_disp : (tick s).disp = s.disp := rfl
@[simp] theorem tick_dt : (tick s).dt = countDown s.dt := rfl
@[simp] theorem tick_st : (tick s).st = countDown s.st := rfl
@[simp] theorem tick_key : (tick s).key = 0 := rfl
@[simp] theorem tick_mem : (tick s).mem = s.mem := rfl
@[simp] theorem tick_fault : (tick s).fault = s.fault := rfl
@[simp] theorem tick_draws : (tick s).draws = s.draws := rfl
@[simp] theorem tick_events : (tick s).events = s.events := rfl
@[simp] theorem tick_presented : (tick s).presented = s.presented := rfl

/-! ## keyPress -/

@[simp] theorem keyPress_v (k : Key) : (keyPress k s).v = s.v := rfl
@[simp] theorem keyPress_i (k : Key) : (keyPress k s).i = s.i := rfl
@[simp] theorem keyPress_pc (k : Key) : (keyPress k s).pc = s.pc := rfl
@[simp] theorem keyPress_stack (k : Key) : (keyPress k s).stack = s.stack := rfl
@[simp] theorem keyPress_sp (k : Key) : (keyPress k s).sp = s.sp := rfl
@[simp] theorem keyPress_disp (k : Key) : (keyPress k s).disp = s.disp := rfl
@[simp] theorem keyPress_dt (k : Key) : (keyPress k s).dt = s.dt := rfl
@[simp] theorem keyPress_st (k : Key) : (keyPress k s).st = s.st := rfl
@[simp] theorem keyPress_key (k : Key) : (keyPress k s).key = s.key ||| BitVec.twoPow 16 k.val := rfl
@[simp] theorem keyPress_mem (k : Key) : (keyPress k s).mem = s.mem := rfl
@[simp] theorem keyPress_fault (k : Key) : (keyPress k s).fault = s.fault := rfl
@[simp] theorem keyPress_draws (k : Key) : (keyPress k s).draws = s.draws := rfl
@[simp] theorem keyPress_events (k : Key) : (keyPress k s).events = s.events := rfl
@[simp] theorem keyPress_presented (k : Key) : (keyPress k s).presented = s.presented := rfl

/-! ## load -/

@[simp] theorem load_v (image : List Byte) : (load image s).v = s.v := rfl
@[simp] theorem load_i (image : List Byte) : (load image s).i = s.i := rfl
@[simp] theorem load_pc (image : List Byte) : (load image s).pc = s.pc := rfl
@[simp] theorem load_stack (image : List Byte) : (load image s).stack = s.stack := rfl
@[simp] theorem load_sp (image : List Byte) : (load image s).sp = s.sp := rfl
@[simp] theorem load_disp (image : List Byte) : (load image s).disp = s.disp := rfl
@[simp] theorem load_dt (image : List Byte) : (load image s).dt = s.dt := rfl
@[simp] theorem load_st (image : List Byte) : (load image s).st = s.st := rfl
@[simp] theorem load_key (image : List Byte) : (load image s).key = s.key := rfl
@[simp] theorem load_mem (image : List Byte) : (load image s).mem = Memory.writeList s.mem Config.progBase image := rfl
@[simp] theorem load_fault (image : List Byte) : (load image s).fault = s.fault := rfl
@[simp] theorem load_draws (image : List Byte) : (load image s).draws = s.draws := rfl
@[simp] theorem load_events (image : List Byte) : (load image s).events = s.events := rfl
@[simp] theorem load_presented (image : List Byte) : (load image s).presented = s.presented := rfl

/-! ## skipIf -/

section
variable (p : Prop) [Decidable p]

@[simp] theorem skipIf_pc : (skipIf p s).pc = if p then s.pc + 2 else s.pc := by unfold skipIf; split <;> rfl
@[simp] theorem skipIf_v : (skipIf p s).v = s.v := by unfold skipIf; split <;> rfl
@[simp] theorem skipIf_i : (skipIf p s).i = s.i := by unfold skipIf; split <;> rfl
@[simp] theorem skipIf_stack : (skipIf p s).stack = s.stack := by unfold skipIf; split <;> rfl
@[simp] theorem skipIf_sp : (skipIf p s).sp = s.sp := by unfold skipIf; split <;> rfl
@[simp] theorem skipIf_disp : (skipIf p s).disp = s.disp := by unfold skipIf; split <;> rfl
@[simp] theorem skipIf_dt : (skipIf p s).dt = s.dt := by unfold skipIf; split <;> rfl
@[simp] theorem skipIf_st : (skipIf p s).st = s.st := by unfold skipIf; split <;> rfl
@[simp] theorem skipIf_key : (skipIf p s).key = s.key := by unfold skipIf; split <;> rfl
@[simp] theorem skipIf_mem : (skipIf p s).mem = s.mem := by unfold skipIf; split <;> rfl
@[simp] theorem skipIf_fault : (skipIf p s).fault = s.fault := by unfold skipIf; split <;> rfl
@[simp] theorem skipIf_draws : (skipIf p s).draws = s.draws := by unfold skipIf; split <;> rfl
@[simp] theorem skipIf_events : (skipIf p s).events = s.events := by unfold skipIf; split <;> rfl
@[simp] theorem skipIf_presented : (skipIf p s).presented = s.presented := by unfold skipIf; split <;> rfl

/-- A skip changes pc alone. -/
theorem skipIf_eq : skipIf p s = { s with pc := if p then s.pc + 2 else s.pc } := by
  unfold skipIf; split <;> rfl

end

/-! ## Reads through the accessors -/

theorem getV_def (x : Reg) : s.getV x = s.v[x] := rfl
theorem byteAt_def (a : Nat) : s.byteAt a = Memory.read s.mem a := rfl
theorem keyLine_def (k : Nat) : s.keyLine k = s.key.getLsbD k := rfl
@[simp] theorem getV_setV_self (x : Reg) (b : Byte) : (s.setV x b).getV x = b := by
  simp [getV_def]
@[simp] theorem getV_setV_other (x k : Reg) (b : Byte) (h : k ≠ x) : (s.setV x b).getV k = s.getV k := by
  simp only [getV_def, setV_v]
  exact Vector.getElem_set_ne _ _ fun e => h (Fin.ext e.symm)

end Sys2Proof.Machine
end

