-- ==== Sys2Proof/Laws/Ops.lean ====
section
/-! SUPPORT. One lemma per shared operation that says everything it can do. -/

namespace Sys2Proof.Machine

/-! ## The range check -/

/-- A range that ends at 0xFFF or below, or is empty, passes the check. -/
theorem rangeFault_none (base : Word) (len : Nat) (h : len = 0 ∨ base.toNat + len - 1 ≤ 0xFFF) :
    rangeFault base len = none := by
  unfold rangeFault; rw [if_neg]; omega

/-- A range that reaches above 0xFFF fails it, with the lowest address of the range above 0xFFF. -/
theorem rangeFault_some (base : Word) (len : Nat) (h0 : 0 < len) (h : base.toNat + len - 1 > 0xFFF) :
    ∃ a : Word, a.toNat = max base.toNat 0x1000 ∧ rangeFault base len = some (.memOutOfRange a) := by
  refine ⟨if base.toNat > 0x1000 then base else 0x1000, ?_, by unfold rangeFault; rw [if_pos ⟨h0, h⟩]⟩
  split
  · omega
  · simp; omega

/-! ## Reading and writing a range -/

/-- Everything `readRange` answers. -/
theorem readRange_cases (s : State) (base : Word) (len : Nat) :
    ((len = 0 ∨ base.toNat + len - 1 ≤ 0xFFF) ∧
      readRange s base len = .ok ((List.range len).map fun k => s.byteAt (base.toNat + k))) ∨
    (0 < len ∧ base.toNat + len - 1 > 0xFFF ∧
      ∃ a : Word, a.toNat = max base.toNat 0x1000 ∧ readRange s base len = .error (.memOutOfRange a)) := by
  by_cases h : len = 0 ∨ base.toNat + len - 1 ≤ 0xFFF
  · exact .inl ⟨h, by simp [readRange, rangeFault_none base len h]⟩
  · have h0 : 0 < len := by omega
    have h1 : base.toNat + len - 1 > 0xFFF := by omega
    obtain ⟨a, ha, e⟩ := rangeFault_some base len h0 h1
    exact .inr ⟨h0, h1, a, ha, by simp [readRange, e]⟩

/-- Everything `writeRange` answers. -/
theorem writeRange_cases (s : State) (base : Word) (bytes : List Byte) :
    ((bytes.length = 0 ∨ base.toNat + bytes.length - 1 ≤ 0xFFF) ∧
      writeRange s base bytes = .ok { s with mem := Memory.writeList s.mem base.toNat bytes }) ∨
    (0 < bytes.length ∧ base.toNat + bytes.length - 1 > 0xFFF ∧
      ∃ a : Word, a.toNat = max base.toNat 0x1000 ∧ writeRange s base bytes = .error (.memOutOfRange a)) := by
  by_cases h : bytes.length = 0 ∨ base.toNat + bytes.length - 1 ≤ 0xFFF
  · exact .inl ⟨h, by simp [writeRange, rangeFault_none base _ h]; rfl⟩
  · have h0 : 0 < bytes.length := by omega
    have h1 : base.toNat + bytes.length - 1 > 0xFFF := by omega
    obtain ⟨a, ha, e⟩ := rangeFault_some base _ h0 h1
    exact .inr ⟨h0, h1, a, ha, by simp [writeRange, e]⟩

/-! ## The registers of a block -/

theorem setRegs_getElem (v : Vector Byte 16) (k : Nat) (bs : List Byte) (j : Nat) (hj : j < 16) :
    (setRegs v k bs)[j] = if h : k ≤ j ∧ j - k < bs.length then bs[j - k] else v[j] := by
  induction bs generalizing v k with
  | nil => simp [setRegs]
  | cons b bs ih =>
    rw [setRegs, ih]
    by_cases h1 : k + 1 ≤ j ∧ j - (k + 1) < bs.length
    · have h2 : k ≤ j ∧ j - k < (b :: bs).length := by simp; omega
      rw [dif_pos h1, dif_pos h2]
      have e : j - k = j - (k + 1) + 1 := by omega
      simp [e]
    · rw [dif_neg h1]
      by_cases e : k = j
      · subst e; simp
      · rw [Vector.getElem_setIfInBounds_ne hj e, dif_neg]
        simp; omega

@[simp] theorem blockRegs_length (s : State) (x : Reg) : (blockRegs s x).length = x.val + 1 := by
  have := x.isLt
  simp [blockRegs, blockLen]

theorem blockRegs_getElem (s : State) (x : Reg) (k : Nat) (hk : k < (blockRegs s x).length) :
    (blockRegs s x)[k] = s.v[k]'(by have := x.isLt; simp at hk; omega) := by
  simp [blockRegs]

/-! ## The call stack -/

theorem push_none (s : State) (a : Word) : s.push a = none ↔ s.sp.val = 16 := by
  have := s.sp.isLt
  unfold State.push
  split <;> simp <;> omega

/-- A push below 16 entries stores at sp and counts one more. -/
theorem push_some (s : State) (a : Word) (h : s.sp.val < 16) :
    s.push a = some { s with stack := s.stack.set s.sp.val a h, sp := ⟨s.sp.val + 1, by omega⟩ } := by
  simp [State.push, h]

theorem pop_none (s : State) : s.pop = none ↔ s.sp.val = 0 := by
  unfold State.pop
  split <;> simp_all

/-- A pop of a non-empty stack gives the entry below sp and counts one less. -/
theorem pop_some (s : State) (j : Nat) (hj : j < 16) (h : s.sp.val = j + 1) :
    s.pop = some (s.stack[j], { s with sp := ⟨j, by omega⟩ }) := by
  have h0 : ¬ s.sp.val = 0 := by omega
  simp [State.pop, h]

/-! ## Faults -/

/-- A fault raised inside an instruction puts pc back and sets the fault register; nothing else changes. -/
theorem raiseHere_eq (f : Fault) (s : State) :
    raiseHere f s = .next { s with pc := s.pc - 2, fault := some f } := rfl

/-- A fault raised at an address: pc is that address and the fault register is set. -/
theorem raise_eq (pc0 : Word) (f : Fault) (s : State) :
    raise pc0 f s = .next { s with pc := pc0, fault := some f } := rfl

/-! ## Flags -/

theorem flagByte_toNat (p : Bool) : (flagByte p).toNat = if p then 1 else 0 := by cases p <;> rfl
theorem flagByte_eq_one (p : Bool) : flagByte p = 1 ↔ p = true := by cases p <;> simp [flagByte]
theorem carryFlag_toNat (a b : Byte) : (carryFlag a b).toNat = if a.toNat + b.toNat > 255 then 1 else 0 := by
  simp [carryFlag, flagByte_toNat]
theorem noBorrowFlag_toNat (a b : Byte) : (noBorrowFlag a b).toNat = if a.toNat ≥ b.toNat then 1 else 0 := by
  simp [noBorrowFlag, flagByte_toNat]
theorem shrFlag_toNat (a : Byte) : (shrFlag a).toNat = a.toNat % 2 := by
  revert a; decide
theorem shlFlag_toNat (a : Byte) : (shlFlag a).toNat = a.toNat / 128 := by
  revert a; decide

/-- What a result with a flag leaves in the registers: the flag in VF for every x, the result in Vx unless
x = F. -/
theorem setResultFlag_spec (s : State) (x : Reg) (r f : Byte) :
    ResultThenFlag s x r.toNat f.toNat (s.setResultFlag x r f).v := by
  refine ⟨by simp, fun h => ?_, fun k h1 h2 => ?_⟩
  · have : flagReg.val ≠ x.val := fun e => h (Fin.ext e.symm)
    simp only [setResultFlag_v, Fin.getElem_fin]
    rw [Vector.getElem_set_ne _ _ this, Vector.getElem_set_self]
  · have a : flagReg.val ≠ k.val := fun e => h2 (Fin.ext e.symm)
    have b : x.val ≠ k.val := fun e => h1 (Fin.ext e.symm)
    simp only [setResultFlag_v, Fin.getElem_fin]
    rw [Vector.getElem_set_ne _ _ a, Vector.getElem_set_ne _ _ b]

/-! ## Operands -/

theorem absAddr_toNat (nnn : Addr12) : (absAddr nnn).toNat = nnn.toNat := by
  simp [absAddr]; omega
theorem wide_toNat (b : Byte) : (wide b).toNat = b.toNat := by
  simp [wide]; omega
theorem offsetTarget_toNat (s : State) (nnn : Addr12) :
    (offsetTarget s nnn).toNat = nnn.toNat + (s.getV 0).toNat := by
  simp only [offsetTarget, BitVec.toNat_add, absAddr_toNat, wide_toNat]; omega
theorem glyphAddr_toNat (b : Byte) : (glyphAddr b).toNat = 5 * b.toNat := by
  have := b.isLt
  simp only [glyphAddr, BitVec.toNat_mul, wide_toNat]
  show 5 * b.toNat % 65536 = _
  omega
@[simp] theorem decimalDigits_length (a : Byte) : (decimalDigits a).length = 3 := rfl

/-- The least held key line. -/
theorem lowestKey_some (s : State) (k : Nat) (hk : k < 16) (h : s.keyLine k = true)
    (least : ∀ j < k, s.keyLine j = false) : lowestKey s = some k := by
  unfold lowestKey
  rw [List.find?_range_eq_some]
  refine ⟨h, by simpa using hk, fun j hj => ?_⟩
  simp [least j hj]

theorem lowestKey_none (s : State) (h : ∀ k : Key, s.keyLine k.val = false) : lowestKey s = none := by
  unfold lowestKey
  rw [List.find?_eq_none]
  intro k hk
  simp [h ⟨k, by simpa using hk⟩]

end Sys2Proof.Machine
end

