-- ==== Sys2Proof/Laws/Display.lean ====
section
/-! SUPPORT. What drawing does to each cell and to the collision flag: the loop of 43_display.md R192 as one
formula per cell. -/

namespace Sys2Proof.Machine

theorem cell_clear (row col : Nat) : cell clearDisplay row col = false := by
  unfold cell rowCells clearDisplay
  by_cases h : row < 32
  · simp [h]
  · simp [h]

/-- XORing a bit into a cell changes that cell alone. -/
theorem cell_xorCell (d : Bitmap) (row col r c : Nat) (bit : Bool) (hrow : row < 32) (hcol : col < 64) :
    cell (xorCell d row col bit) r c = (cell d r c ^^ (decide (r = row ∧ c = col) && bit)) := by
  cases bit with
  | false => simp [xorCell]
  | true =>
    simp only [cell, xorCell, if_true, rowCells, Vector.getElem?_setIfInBounds]
    by_cases hr : row = r
    · subst hr
      have e : (col = c) = (c = col) := propext eq_comm
      simp [hrow, hcol, BitVec.getLsbD_twoPow, e]
    · have : ¬ r = row := fun e => hr e.symm
      simp [hr, this]

/-- Two displays with the same cells are equal. -/
theorem bitmap_ext (d e : Bitmap) (h : ∀ row col, row < 32 → col < 64 → cell d row col = cell e row col) :
    d = e := by
  apply Vector.ext
  intro row hrow
  apply BitVec.eq_of_getLsbD_eq
  intro col hcol
  simpa [cell, rowCells, hrow] using h row col hrow hcol

/-- The bit of a sprite byte on a column, for the leftmost `n` of its pixels. -/
def byteBit (n left : Nat) (b : Byte) (col : Nat) : Bool :=
  decide (left ≤ col ∧ col < left + n) && b.getLsbD (7 - (col - left))

theorem byteBit_zero (left : Nat) (b : Byte) (col : Nat) : byteBit 0 left b col = false := by
  simp [byteBit]

/-- What the first `n` pixels of a sprite byte do. -/
theorem drawByte_prefix (row left : Nat) (b : Byte) (d : Drawing) (n : Nat) :
    let e := (List.range n).foldl (fun d c => drawPixel row (left + c) (b.getLsbD (7 - c)) d) d
    (∀ r c, r < 32 → c < 64 →
      cell e.disp r c = (cell d.disp r c ^^ (decide (r = row) && byteBit n left b c))) ∧
    (e.hit = true ↔ d.hit = true ∨ (row < 32 ∧ ∃ c < 64, byteBit n left b c = true ∧ cell d.disp row c = true)) := by
  induction n with
  | zero =>
    constructor
    · intro r c _ _; simp [byteBit_zero]
    · simp [byteBit_zero]
  | succ n ih =>
    obtain ⟨ihc, ihh⟩ := ih
    simp only [List.range_succ, List.foldl_append, List.foldl_cons, List.foldl_nil]
    generalize (List.range n).foldl (fun d c => drawPixel row (left + c) (b.getLsbD (7 - c)) d) d = e at ihc ihh
    by_cases hb : row ≤ 31 ∧ left + n ≤ 63
    · have step : drawPixel row (left + n) (b.getLsbD (7 - n)) e =
          { disp := xorCell e.disp row (left + n) (b.getLsbD (7 - n)),
            hit := e.hit || (b.getLsbD (7 - n) && cell e.disp row (left + n)) } := by
        simp [drawPixel, hb]
      rw [step]
      constructor
      · intro r c hr hc
        dsimp only
        rw [cell_xorCell _ _ _ _ _ _ (by omega) (by omega), ihc r c hr hc]
        by_cases e1 : r = row
        · by_cases e2 : c = left + n
          · subst e2; simp [e1, byteBit]
          · have : (decide (left ≤ c ∧ c < left + n)) = decide (left ≤ c ∧ c < left + (n + 1)) := by
              simp only [decide_eq_decide]; omega
            simp [e1, e2, byteBit, this]
        · simp [e1]
      · have hrow : row < 32 := by omega
        have old : cell e.disp row (left + n) = cell d.disp row (left + n) := by
          rw [ihc row (left + n) hrow (by omega)]; simp [byteBit]
        dsimp only
        simp only [Bool.or_eq_true, Bool.and_eq_true, ihh, old, hrow, true_and]
        constructor
        · rintro ((h | ⟨c, hc, h1, h2⟩) | ⟨h1, h2⟩)
          · exact .inl h
          · refine .inr ⟨c, hc, ?_, h2⟩
            simp only [byteBit, Bool.and_eq_true, decide_eq_true_eq] at h1 ⊢
            exact ⟨by omega, h1.2⟩
          · refine .inr ⟨left + n, by omega, ?_, h2⟩
            simp [byteBit, h1]
        · rintro (h | ⟨c, hc, h1, h2⟩)
          · exact .inl (.inl h)
          · simp only [byteBit, Bool.and_eq_true, decide_eq_true_eq] at h1
            by_cases e2 : c = left + n
            · subst e2
              exact .inr ⟨by simpa using h1.2, h2⟩
            · refine .inl (.inr ⟨c, hc, ?_, h2⟩)
              simp only [byteBit, Bool.and_eq_true, decide_eq_true_eq]
              exact ⟨by omega, h1.2⟩
    · have step : drawPixel row (left + n) (b.getLsbD (7 - n)) e = e := by
        simp only [drawPixel, if_neg hb]
      rw [step]
      constructor
      · intro r c hr hc
        rw [ihc r c hr hc]
        by_cases e1 : r = row
        · have : (decide (left ≤ c ∧ c < left + n)) = decide (left ≤ c ∧ c < left + (n + 1)) := by
            simp only [decide_eq_decide]; omega
          simp [byteBit, this]
        · simp [e1]
      · rw [ihh]
        constructor
        · rintro (h | ⟨hr, c, hc, h1, h2⟩)
          · exact .inl h
          · refine .inr ⟨hr, c, hc, ?_, h2⟩
            simp only [byteBit, Bool.and_eq_true, decide_eq_true_eq] at h1 ⊢
            exact ⟨by omega, h1.2⟩
        · rintro (h | ⟨hr, c, hc, h1, h2⟩)
          · exact .inl h
          · refine .inr ⟨hr, c, hc, ?_, h2⟩
            simp only [byteBit, Bool.and_eq_true, decide_eq_true_eq] at h1 ⊢
            exact ⟨by omega, h1.2⟩

/-- The bit that the sprite rows `bs`, the first at row `top`, put on a cell. -/
def rowsBit (top left : Nat) (bs : List Byte) (row col : Nat) : Bool :=
  decide (top ≤ row ∧ row < top + bs.length) && byteBit 8 left (bs.getD (row - top) 0) col

theorem rowsBit_nil (top left row col : Nat) : rowsBit top left [] row col = false := by
  have h : ¬ (top ≤ row ∧ row < top + ([] : List Byte).length) := by simp
  simp only [rowsBit, decide_eq_false h, Bool.false_and]

theorem rowsBit_cons_first (top left : Nat) (b : Byte) (bs : List Byte) (col : Nat) :
    rowsBit top left (b :: bs) top col = byteBit 8 left b col := by
  simp [rowsBit]

theorem rowsBit_cons_other (top left : Nat) (b : Byte) (bs : List Byte) (row col : Nat) (h : row ≠ top) :
    rowsBit top left (b :: bs) row col = rowsBit (top + 1) left bs row col := by
  by_cases h2 : top ≤ row
  · have e : row - top = (row - (top + 1)) + 1 := by omega
    have e2 : (decide (top ≤ row ∧ row < top + (bs.length + 1))) =
        decide (top + 1 ≤ row ∧ row < top + 1 + bs.length) := by
      simp only [decide_eq_decide]; omega
    simp only [rowsBit, List.length_cons, e2]
    rw [e, List.getD_cons_succ]
  · have h3 : ¬ top + 1 ≤ row := by omega
    simp [rowsBit, h2, h3]

theorem rowsBit_own_row_below (top left : Nat) (bs : List Byte) (col : Nat) :
    rowsBit (top + 1) left bs top col = false := by
  simp [rowsBit]

/-- What drawing sprite rows does: each cell is XORed with the sprite's bit on it, and the flag is set
exactly when a bit of 1 meets a cell that was lit when the draw began (43_display.md R195). -/
theorem drawRows_spec (top left : Nat) (bs : List Byte) (d : Drawing) :
    (∀ r c, r < 32 → c < 64 →
      cell (drawRows top left bs d).disp r c = (cell d.disp r c ^^ rowsBit top left bs r c)) ∧
    ((drawRows top left bs d).hit = true ↔
      d.hit = true ∨ ∃ r c, r < 32 ∧ c < 64 ∧ cell d.disp r c = true ∧ rowsBit top left bs r c = true) := by
  induction bs generalizing top d with
  | nil => simp [drawRows, rowsBit_nil]
  | cons b bs ih =>
    have ⟨pc, ph⟩ := drawByte_prefix top left b d 8
    change (∀ r c, r < 32 → c < 64 → cell (drawByte top left b d).disp r c = _) at pc
    change (drawByte top left b d).hit = true ↔ _ at ph
    obtain ⟨ic, ihh⟩ := ih (top + 1) (drawByte top left b d)
    constructor
    · intro r c hr hc
      rw [drawRows, ic r c hr hc, pc r c hr hc]
      by_cases e : r = top
      · subst e
        rw [rowsBit_cons_first, rowsBit_own_row_below]; simp
      · rw [rowsBit_cons_other _ _ _ _ _ _ e]; simp [e]
    · rw [drawRows, ihh, ph]
      constructor
      · rintro ((h | ⟨hr, c, hc, h1, h2⟩) | ⟨r, c, hr, hc, h1, h2⟩)
        · exact .inl h
        · exact .inr ⟨top, c, hr, hc, h2, by rw [rowsBit_cons_first]; exact h1⟩
        · have e : r ≠ top := by
            rintro rfl
            rw [rowsBit_own_row_below] at h2; simp at h2
          rw [pc r c hr hc] at h1
          exact .inr ⟨r, c, hr, hc, by simpa [e] using h1, by rw [rowsBit_cons_other _ _ _ _ _ _ e]; exact h2⟩
      · rintro (h | ⟨r, c, hr, hc, h1, h2⟩)
        · exact .inl (.inl h)
        · by_cases e : r = top
          · subst e
            rw [rowsBit_cons_first] at h2
            exact .inl (.inr ⟨hr, c, hc, h2, h1⟩)
          · rw [rowsBit_cons_other _ _ _ _ _ _ e] at h2
            exact .inr ⟨r, c, hr, hc, by rw [pc r c hr hc]; simpa [e] using h1, h2⟩

/-- The bytes DRW reads put on a cell the pixel that `spriteBit` says. -/
theorem rowsBit_sprite (s : State) (n top left row col : Nat) :
    rowsBit top left ((List.range n).map fun k => s.byteAt (s.i.toNat + k)) row col =
      spriteBit s n top left row col := by
  by_cases h : top ≤ row ∧ row < top + n
  · have hk : row - top < n := by omega
    simp only [rowsBit, byteBit, spriteBit, List.length_map, List.length_range]
    rw [List.getD_eq_getElem?_getD]
    simp [h, hk]
  · simp only [rowsBit, spriteBit, List.length_map, List.length_range]
    have h2 : ¬ (top ≤ row ∧ row < top + n ∧ left ≤ col ∧ col < left + 8) := fun e => h ⟨e.1, e.2.1⟩
    rw [decide_eq_false h, decide_eq_false h2]; simp

end Sys2Proof.Machine
end

