-- ==== Sys2Proof/Laws/Encoding.lean ====
section
/-! SUPPORT. The fields of a word written in one of the formats of 30_encoding.md R93, the word made of its
fields, and the two byte orders' round trip: what a proof about `decode` cites instead of the bits. -/

namespace Sys2Proof

@[simp] theorem regOf_bits (x : Reg) : regOf x.bits = x := rfl
@[simp] theorem bits_regOf (b : Nibble) : (regOf b).bits = b := rfl

/-! ## Fields of the formats -/

@[simp] theorem opField_formatA (op : Nibble) (nnn : Addr12) : opField (formatA op nnn) = op := by
  apply BitVec.eq_of_getLsbD_eq; intro i hi
  simp only [opField, formatA, BitVec.getLsbD_extractLsb', BitVec.getLsbD_append]
  have h : ¬ 12 + i < 12 := by omega
  simp [hi, h]

@[simp] theorem nnnField_formatA (op : Nibble) (nnn : Addr12) : nnnField (formatA op nnn) = nnn := by
  apply BitVec.eq_of_getLsbD_eq; intro i hi
  simp only [nnnField, formatA, BitVec.getLsbD_extractLsb', BitVec.getLsbD_append]
  simp [hi]

@[simp] theorem opField_formatXK (op : Nibble) (x : Reg) (kk : Byte) : opField (formatXK op x kk) = op := by
  apply BitVec.eq_of_getLsbD_eq; intro i hi
  simp only [opField, formatXK, BitVec.getLsbD_extractLsb', BitVec.getLsbD_append]
  have h : ¬ 12 + i < 8 := by omega
  have h2 : ¬ 12 + i - 8 < 4 := by omega
  have h3 : 12 + i - 8 - 4 = i := by omega
  simp [hi, h, h2, h3]

@[simp] theorem xField_formatXK (op : Nibble) (x : Reg) (kk : Byte) :
    xField (formatXK op x kk) = x.bits := by
  apply BitVec.eq_of_getLsbD_eq; intro i hi
  simp only [xField, formatXK, BitVec.getLsbD_extractLsb', BitVec.getLsbD_append]
  have h : ¬ 8 + i < 8 := by omega
  simp [hi, h]

@[simp] theorem kkField_formatXK (op : Nibble) (x : Reg) (kk : Byte) : kkField (formatXK op x kk) = kk := by
  apply BitVec.eq_of_getLsbD_eq; intro i hi
  simp only [kkField, formatXK, BitVec.getLsbD_extractLsb', BitVec.getLsbD_append]
  simp [hi]

@[simp] theorem opField_formatXY (op : Nibble) (x y : Reg) (n : Nibble) :
    opField (formatXY op x y n) = op := by
  apply BitVec.eq_of_getLsbD_eq; intro i hi
  simp only [opField, formatXY, BitVec.getLsbD_extractLsb', BitVec.getLsbD_append]
  have h : ¬ 12 + i < 4 := by omega
  have h2 : ¬ 12 + i - 4 < 4 := by omega
  have h3 : ¬ 12 + i - 4 - 4 < 4 := by omega
  have h4 : 12 + i - 4 - 4 - 4 = i := by omega
  simp [hi, h, h2, h3, h4]

@[simp] theorem xField_formatXY (op : Nibble) (x y : Reg) (n : Nibble) :
    xField (formatXY op x y n) = x.bits := by
  apply BitVec.eq_of_getLsbD_eq; intro i hi
  simp only [xField, formatXY, BitVec.getLsbD_extractLsb', BitVec.getLsbD_append]
  have h : ¬ 8 + i < 4 := by omega
  have h2 : ¬ 8 + i - 4 < 4 := by omega
  have h3 : 8 + i - 4 - 4 = i := by omega
  simp [hi, h, h2, h3]

@[simp] theorem yField_formatXY (op : Nibble) (x y : Reg) (n : Nibble) :
    yField (formatXY op x y n) = y.bits := by
  apply BitVec.eq_of_getLsbD_eq; intro i hi
  simp only [yField, formatXY, BitVec.getLsbD_extractLsb', BitVec.getLsbD_append]
  have h : ¬ 4 + i < 4 := by omega
  simp [hi, h]

@[simp] theorem nField_formatXY (op : Nibble) (x y : Reg) (n : Nibble) :
    nField (formatXY op x y n) = n := by
  apply BitVec.eq_of_getLsbD_eq; intro i hi
  simp only [nField, formatXY, BitVec.getLsbD_extractLsb', BitVec.getLsbD_append]
  simp [hi]

/-! ## A word is made of its fields -/

theorem formatA_fields (w : Word) : formatA (opField w) (nnnField w) = w := by
  apply BitVec.eq_of_getLsbD_eq; intro i hi
  simp only [opField, nnnField, formatA, BitVec.getLsbD_extractLsb', BitVec.getLsbD_append]
  by_cases h : i < 12
  · simp [h]
  · have h4 : i - 12 < 4 := by omega
    have e : 12 + (i - 12) = i := by omega
    simp [h, h4, e]

theorem formatXK_fields (w : Word) : formatXK (opField w) (regOf (xField w)) (kkField w) = w := by
  apply BitVec.eq_of_getLsbD_eq; intro i hi
  simp only [opField, xField, kkField, formatXK, bits_regOf, BitVec.getLsbD_extractLsb', BitVec.getLsbD_append]
  by_cases h : i < 8
  · simp [h]
  by_cases h2 : i < 12
  · have h4 : i - 8 < 4 := by omega
    have e : 8 + (i - 8) = i := by omega
    simp [h, h4, e]
  · have h4 : ¬ i - 8 < 4 := by omega
    have h5 : i - 8 - 4 < 4 := by omega
    have e : 12 + (i - 8 - 4) = i := by omega
    simp [h, h4, h5, e]

theorem formatXY_fields (w : Word) :
    formatXY (opField w) (regOf (xField w)) (regOf (yField w)) (nField w) = w := by
  apply BitVec.eq_of_getLsbD_eq; intro i hi
  simp only [opField, xField, yField, nField, formatXY, bits_regOf, BitVec.getLsbD_extractLsb',
    BitVec.getLsbD_append]
  by_cases h : i < 4
  · simp [h]
  by_cases h2 : i < 8
  · have h4 : i - 4 < 4 := by omega
    have e : 4 + (i - 4) = i := by omega
    simp [h, h4, e]
  by_cases h3 : i < 12
  · have h4 : ¬ i - 4 < 4 := by omega
    have h5 : i - 4 - 4 < 4 := by omega
    have e : 8 + (i - 4 - 4) = i := by omega
    simp [h, h4, h5, e]
  · have h4 : ¬ i - 4 < 4 := by omega
    have h5 : ¬ i - 4 - 4 < 4 := by omega
    have h6 : i - 4 - 4 - 4 < 4 := by omega
    have e : 12 + (i - 4 - 4 - 4) = i := by omega
    simp [h, h4, h5, h6, e]

/-- A word is the two bytes that memory holds it as. -/
@[simp] theorem wordOfBytes_bytes (w : Word) : wordOfBytes (firstByte w) (secondByte w) = w := by
  apply BitVec.eq_of_getLsbD_eq; intro i hi
  simp only [wordOfBytes, firstByte, secondByte, BitVec.getLsbD_extractLsb', BitVec.getLsbD_append]
  by_cases h : i < 8
  · simp [h]
  · have h4 : i - 8 < 8 := by omega
    have e : 8 + (i - 8) = i := by omega
    simp [h, h4, e]

/-! ## Fields as numbers -/

theorem opField_toNat (w : Word) : (opField w).toNat = w.toNat / 4096 := by
  simp only [opField, BitVec.extractLsb'_toNat, Nat.shiftRight_eq_div_pow]; omega
theorem xField_toNat (w : Word) : (xField w).toNat = w.toNat / 256 % 16 := by
  simp only [xField, BitVec.extractLsb'_toNat, Nat.shiftRight_eq_div_pow]
theorem yField_toNat (w : Word) : (yField w).toNat = w.toNat / 16 % 16 := by
  simp only [yField, BitVec.extractLsb'_toNat, Nat.shiftRight_eq_div_pow]
theorem nField_toNat (w : Word) : (nField w).toNat = w.toNat % 16 := by
  simp only [nField, BitVec.extractLsb'_toNat, Nat.shiftRight_eq_div_pow]; omega
theorem kkField_toNat (w : Word) : (kkField w).toNat = w.toNat % 256 := by
  simp only [kkField, BitVec.extractLsb'_toNat, Nat.shiftRight_eq_div_pow]; omega
theorem nnnField_toNat (w : Word) : (nnnField w).toNat = w.toNat % 4096 := by
  simp only [nnnField, BitVec.extractLsb'_toNat, Nat.shiftRight_eq_div_pow]; omega

/-! ## The decoder by family: one lemma per value of the top four bits -/

/-- The 16 values of a nibble, for a case analysis over the opcode family. -/
theorem nibble_cases (b : Nibble) :
    b = 0 ∨ b = 1 ∨ b = 2 ∨ b = 3 ∨ b = 4 ∨ b = 5 ∨ b = 6 ∨ b = 7 ∨ b = 8 ∨ b = 9 ∨ b = 10 ∨ b = 11 ∨
      b = 12 ∨ b = 13 ∨ b = 14 ∨ b = 15 := by
  revert b; decide

section
variable (w : Word)

theorem decode_family0 (h : opField w = 0) :
    decode w = decodeFamily0 w := by
  simp [decode, h]
theorem decode_family1 (h : opField w = 1) :
    decode w = .ok (.jp (nnnField w)) := by
  simp [decode, h]
theorem decode_family2 (h : opField w = 2) :
    decode w = .ok (.call (nnnField w)) := by
  simp [decode, h]
theorem decode_family3 (h : opField w = 3) :
    decode w = .ok (.seI (regOf (xField w)) (kkField w)) := by
  simp [decode, h]
theorem decode_family4 (h : opField w = 4) :
    decode w = .ok (.sneI (regOf (xField w)) (kkField w)) := by
  simp [decode, h]
theorem decode_family5 (h : opField w = 5) :
    decode w = .ok (.seR (regOf (xField w)) (regOf (yField w)) (nField w)) := by
  simp [decode, h]
theorem decode_family6 (h : opField w = 6) :
    decode w = .ok (.ldI (regOf (xField w)) (kkField w)) := by
  simp [decode, h]
theorem decode_family7 (h : opField w = 7) :
    decode w = .ok (.addI (regOf (xField w)) (kkField w)) := by
  simp [decode, h]
theorem decode_family8 (h : opField w = 8) :
    decode w = decodeFamily8 (regOf (xField w)) (regOf (yField w)) (nField w) := by
  simp [decode, h]
theorem decode_family9 (h : opField w = 9) :
    decode w = .ok (.sneR (regOf (xField w)) (regOf (yField w)) (nField w)) := by
  simp [decode, h]
theorem decode_family10 (h : opField w = 10) :
    decode w = .ok (.ldIdx (nnnField w)) := by
  simp [decode, h]
theorem decode_family11 (h : opField w = 11) :
    decode w = .ok (.jpV0 (nnnField w)) := by
  simp [decode, h]
theorem decode_family12 (h : opField w = 12) :
    decode w = .ok (.rnd (regOf (xField w)) (kkField w)) := by
  simp [decode, h]
theorem decode_family13 (h : opField w = 13) :
    decode w = .ok (.drw (regOf (xField w)) (regOf (yField w)) (nField w)) := by
  simp [decode, h]
theorem decode_family14 (h : opField w = 14) :
    decode w = decodeFamilyE (regOf (xField w)) (kkField w) := by
  simp [decode, h]
theorem decode_family15 (h : opField w = 15) :
    decode w = decodeFamilyF (regOf (xField w)) (kkField w) := by
  simp [decode, h]

end

end Sys2Proof
end

