-- ==== Sys2Proof/Laws/Exec.lean ====
section
/-! SUPPORT. What an instruction can do, said once: it raises its one fault, or it completes with the effect
its rule gives. A proof over all instructions cites `exec_cases` and takes the cases of `Completed`. -/

namespace Sys2Proof.Machine

/-- The fault an instruction raises in a state, if its execute-time check fails (60_exceptions.md R231,
R238). -/
def ExecFault : Instr → State → Fault → Prop
  | .ret, s, f => s.sp.val = 0 ∧ f = .stackUnderflow
  | .call _, s, f => s.sp.val = 16 ∧ f = .stackOverflow
  | .skp x, s, f => (s.getV x).toNat > 15 ∧ f = .keyIndexOutOfRange (s.getV x)
  | .sknp x, s, f => (s.getV x).toNat > 15 ∧ f = .keyIndexOutOfRange (s.getV x)
  | i, s, f => ∃ len a, accessLen i = some len ∧ 0 < len ∧ s.i.toNat + len - 1 > 0xFFF ∧
      BitVec.toNat a = max s.i.toNat 0x1000 ∧ f = .memOutOfRange a

/-- The drawing that DRW ends with. -/
def drawn (x y : Reg) (n : Nibble) (s : State) : Drawing :=
  drawRows (originRow s y) (originCol s x) ((List.range n.toNat).map fun k => s.byteAt (s.i.toNat + k))
    { disp := s.disp, hit := false }

/-- The state in which an instruction completes. -/
def Completed : Instr → State → State → Prop
  | .cls, s, t => t = { s with disp := clearDisplay, presented := clearDisplay :: s.presented }
  | .ret, s, t => ∃ j : Fin 16, s.sp.val = j.val + 1 ∧ t = { s with sp := ⟨j.val, by omega⟩, pc := s.stack[j] }
  | .jp nnn, s, t => t = { s with pc := absAddr nnn }
  | .call nnn, s, t => ∃ h : s.sp.val < 16,
      t = { s with stack := s.stack.set s.sp.val s.pc h, sp := ⟨s.sp.val + 1, by omega⟩, pc := absAddr nnn }
  | .seI x kk, s, t => t = { s with pc := if s.getV x = kk then s.pc + 2 else s.pc }
  | .sneI x kk, s, t => t = { s with pc := if s.getV x ≠ kk then s.pc + 2 else s.pc }
  | .seR x y _, s, t => t = { s with pc := if s.getV x = s.getV y then s.pc + 2 else s.pc }
  | .sneR x y _, s, t => t = { s with pc := if s.getV x ≠ s.getV y then s.pc + 2 else s.pc }
  | .ldI x kk, s, t => t = s.setV x kk
  | .addI x kk, s, t => t = s.setV x (s.getV x + kk)
  | .ldR x y, s, t => t = s.setV x (s.getV y)
  | .orR x y, s, t => t = s.setV x (s.getV x ||| s.getV y)
  | .andR x y, s, t => t = s.setV x (s.getV x &&& s.getV y)
  | .xorR x y, s, t => t = s.setV x (s.getV x ^^^ s.getV y)
  | .addR x y, s, t => t = s.setResultFlag x (s.getV x + s.getV y) (carryFlag (s.getV x) (s.getV y))
  | .sub x y, s, t => t = s.setResultFlag x (s.getV x - s.getV y) (noBorrowFlag (s.getV x) (s.getV y))
  | .shr x _, s, t => t = s.setResultFlag x (s.getV x >>> 1) (shrFlag (s.getV x))
  | .subn x y, s, t => t = s.setResultFlag x (s.getV y - s.getV x) (noBorrowFlag (s.getV y) (s.getV x))
  | .shl x _, s, t => t = s.setResultFlag x (s.getV x <<< 1) (shlFlag (s.getV x))
  | .ldIdx nnn, s, t => t = { s with i := absAddr nnn }
  | .jpV0 nnn, s, t => t = { s with pc := offsetTarget s nnn }
  | .rnd x kk, s, t => t = { s.setV x (Config.rnd s.draws &&& kk) with draws := s.draws + 1 }
  | .drw x y n, s, t => (n.toNat = 0 ∨ s.i.toNat + n.toNat - 1 ≤ 0xFFF) ∧
      t = { s with v := s.v.set flagReg (flagByte (drawn x y n s).hit), disp := (drawn x y n s).disp,
                   presented := (drawn x y n s).disp :: s.presented }
  | .skp x, s, t => (s.getV x).toNat ≤ 15 ∧
      t = { s with pc := if s.keyLine (s.getV x).toNat = true then s.pc + 2 else s.pc }
  | .sknp x, s, t => (s.getV x).toNat ≤ 15 ∧
      t = { s with pc := if s.keyLine (s.getV x).toNat = false then s.pc + 2 else s.pc }
  | .ldVxDt x, s, t => t = s.setV x s.dt
  | .ldVxK x, s, t => (∃ k, lowestKey s = some k ∧ t = s.setV x (BitVec.ofNat 8 k)) ∨
      (lowestKey s = none ∧ t = { s with pc := s.pc - 2 })
  | .ldDtVx x, s, t => t = { s with dt := s.getV x }
  | .ldStVx x, s, t => t = { s with st := s.getV x }
  | .addIdx x, s, t => t = { s with i := s.i + wide (s.getV x) }
  | .ldF x, s, t => t = { s with i := glyphAddr (s.getV x) }
  | .ldB x, s, t => s.i.toNat + 2 ≤ 0xFFF ∧
      t = { s with mem := Memory.writeList s.mem s.i.toNat (decimalDigits (s.getV x)) }
  | .stM x, s, t => s.i.toNat + x.val ≤ 0xFFF ∧
      t = { s with mem := Memory.writeList s.mem s.i.toNat (blockRegs s x) }
  | .ldM x, s, t => s.i.toNat + x.val ≤ 0xFFF ∧
      t = { s with v := setRegs s.v 0 ((List.range (x.val + 1)).map fun k => s.byteAt (s.i.toNat + k)) }

/-- An instruction raises its fault, with nothing changed but pc back at the instruction and the fault
register, or completes. It never stops. -/
theorem exec_answers (i : Instr) (s : State) :
    (∃ f, ExecFault i s f ∧ exec i s = .next { s with pc := s.pc - 2, fault := some f }) ∨
    ∃ t, Completed i s t ∧ exec i s = .next t := by
  cases i with
  | ret =>
    by_cases h : s.sp.val = 0
    · exact .inl ⟨_, ⟨h, rfl⟩, by simp [exec, execRet, (pop_none s).2 h, raiseHere_eq]⟩
    · have := s.sp.isLt
      have hj : s.sp.val = (s.sp.val - 1) + 1 := by omega
      exact .inr ⟨_, ⟨⟨s.sp.val - 1, by omega⟩, hj, rfl⟩, by
        simp [exec, execRet, pop_some s (s.sp.val - 1) (by omega) hj, State.setPc]⟩
  | call nnn =>
    by_cases h : s.sp.val < 16
    · exact .inr ⟨_, ⟨h, rfl⟩, by simp [exec, execCall, push_some s _ h, State.setPc]⟩
    · have h16 : s.sp.val = 16 := by omega
      exact .inl ⟨_, ⟨h16, rfl⟩, by simp [exec, execCall, (push_none s _).2 h16, raiseHere_eq]⟩
  | skp x =>
    by_cases h : (s.getV x).toNat > 15
    · exact .inl ⟨_, ⟨h, rfl⟩, by simp only [exec, execSkp, if_pos h, raiseHere_eq]⟩
    · exact .inr ⟨_, ⟨by omega, rfl⟩, by simp only [exec, execSkp, if_neg h, skipIf_eq]⟩
  | sknp x =>
    by_cases h : (s.getV x).toNat > 15
    · exact .inl ⟨_, ⟨h, rfl⟩, by simp only [exec, execSknp, if_pos h, raiseHere_eq]⟩
    · exact .inr ⟨_, ⟨by omega, rfl⟩, by simp only [exec, execSknp, if_neg h, skipIf_eq]⟩
  | drw x y n =>
    rcases readRange_cases s s.i n.toNat with ⟨h, e⟩ | ⟨h0, h1, a, ha, e⟩
    · exact .inr ⟨_, ⟨h, rfl⟩, by simp only [exec, execDrw, e]; rfl⟩
    · exact .inl ⟨_, ⟨_, a, rfl, h0, h1, ha, rfl⟩, by simp only [exec, execDrw, e, raiseHere_eq]⟩
  | ldB x =>
    rcases writeRange_cases s s.i (decimalDigits (s.getV x)) with ⟨h, e⟩ | ⟨h0, h1, a, ha, e⟩
    · exact .inr ⟨_, ⟨by simp at h; omega, rfl⟩, by simp only [exec, execLdB, e]⟩
    · exact .inl ⟨_, ⟨_, a, rfl, h0, h1, ha, rfl⟩, by simp only [exec, execLdB, e, raiseHere_eq]⟩
  | stM x =>
    rcases writeRange_cases s s.i (blockRegs s x) with ⟨h, e⟩ | ⟨h0, h1, a, ha, e⟩
    · exact .inr ⟨_, ⟨by simp at h; omega, rfl⟩, by simp only [exec, execStM, e]⟩
    · rw [blockRegs_length] at h0 h1
      exact .inl ⟨_, ⟨_, a, rfl, h0, h1, ha, rfl⟩, by simp only [exec, execStM, e, raiseHere_eq]⟩
  | ldM x =>
    rcases readRange_cases s s.i (blockLen x) with ⟨h, e⟩ | ⟨h0, h1, a, ha, e⟩
    · exact .inr ⟨_, ⟨by simp [blockLen] at h; omega, rfl⟩, by simp only [exec, execLdM, e]; rfl⟩
    · exact .inl ⟨_, ⟨_, a, rfl, h0, h1, ha, rfl⟩, by simp only [exec, execLdM, e, raiseHere_eq]⟩
  | ldVxK x =>
    cases h : lowestKey s with
    | none => exact .inr ⟨_, .inr ⟨h, rfl⟩, by simp only [exec, execLdVxK, h]; rfl⟩
    | some k => exact .inr ⟨_, .inl ⟨k, h, rfl⟩, by simp only [exec, execLdVxK, h]⟩
  | seI x kk => exact .inr ⟨_, rfl, by simp only [exec, execSeI, skipIf_eq]⟩
  | sneI x kk => exact .inr ⟨_, rfl, by simp only [exec, execSneI, skipIf_eq]⟩
  | seR x y u => exact .inr ⟨_, rfl, by simp only [exec, execSeR, skipIf_eq]⟩
  | sneR x y u => exact .inr ⟨_, rfl, by simp only [exec, execSneR, skipIf_eq]⟩
  | _ => exact .inr ⟨_, rfl, rfl⟩

/-- If `exec` answers a next state, the instruction raised its fault or completed in that state. -/
theorem exec_cases {i : Instr} {s t : State} (h : exec i s = .next t) :
    (∃ f, ExecFault i s f ∧ t = { s with pc := s.pc - 2, fault := some f }) ∨ Completed i s t := by
  rcases exec_answers i s with ⟨f, hf, e⟩ | ⟨u, hu, e⟩ <;> rw [h] at e <;> injection e with e
  · exact .inl ⟨f, hf, e⟩
  · exact .inr (e ▸ hu)

/-- An instruction that completes leaves the fault register and the event list alone. -/
theorem completed_fault_events {i : Instr} {s t : State} (h : Completed i s t) :
    t.fault = s.fault ∧ t.events = s.events := by
  cases i <;> simp only [Completed] at h
  case ret => obtain ⟨_, _, rfl⟩ := h; exact ⟨rfl, rfl⟩
  case call => obtain ⟨_, rfl⟩ := h; exact ⟨rfl, rfl⟩
  case drw => obtain ⟨_, rfl⟩ := h; exact ⟨rfl, rfl⟩
  case skp => obtain ⟨_, rfl⟩ := h; exact ⟨rfl, rfl⟩
  case sknp => obtain ⟨_, rfl⟩ := h; exact ⟨rfl, rfl⟩
  case ldB => obtain ⟨_, rfl⟩ := h; exact ⟨rfl, rfl⟩
  case stM => obtain ⟨_, rfl⟩ := h; exact ⟨rfl, rfl⟩
  case ldM => obtain ⟨_, rfl⟩ := h; exact ⟨rfl, rfl⟩
  case ldVxK => rcases h with ⟨_, _, rfl⟩ | ⟨_, rfl⟩ <;> exact ⟨rfl, rfl⟩
  all_goals (subst h; exact ⟨rfl, rfl⟩)

end Sys2Proof.Machine
end

