-- ==== Sys2Proof/Laws/PerInstr.lean ====
section
/-! SUPPORT. Per-instruction family OpcodeRow: every instruction's word matches its own row of the opcode map
(30_encoding.md R96). One lemma per constructor of Instr. -/

namespace Sys2Proof.Laws.OpcodeRow

open Sys2Proof Sys2Proof.Machine

/-- The word of the instruction is its row's: `w & mask = match`. -/
def Statement (i : Instr) : Prop :=
  ∃ row ∈ opcodeMap, row.1 = rowOf i ∧ encode i &&& row.2.2 = row.2.1

/-! ## Masking a word that is written in a format -/

theorem append_and {m k : Nat} (a b : BitVec m) (c d : BitVec k) :
    (a ++ c) &&& (b ++ d) = (a &&& b) ++ (c &&& d) := by
  apply BitVec.eq_of_getLsbD_eq
  intro i hi
  simp only [BitVec.getLsbD_and, BitVec.getLsbD_append]
  split <;> rfl

theorem and_formatA (op m : Nibble) (nnn k : Addr12) :
    formatA op nnn &&& formatA m k = formatA (op &&& m) (nnn &&& k) := append_and (m := 4) ..

theorem and_formatXK (op m : Nibble) (x z : Reg) (kk k : Byte) :
    formatXK op x kk &&& formatXK m z k = formatXK (op &&& m) (regOf (x.bits &&& z.bits)) (kk &&& k) := by
  unfold formatXK
  rw [bits_regOf, ← append_and op m x.bits z.bits]
  exact append_and (m := 8) ..

theorem and_formatXY (op m : Nibble) (x z y t : Reg) (n k : Nibble) :
    formatXY op x y n &&& formatXY m z t k =
      formatXY (op &&& m) (regOf (x.bits &&& z.bits)) (regOf (y.bits &&& t.bits)) (n &&& k) := by
  unfold formatXY
  rw [bits_regOf, bits_regOf, ← append_and op m x.bits z.bits]
  rw [← append_and (m := 8) (op ++ x.bits) (m ++ z.bits) y.bits t.bits]
  exact append_and (m := 12) ..

@[simp] theorem regOf_and_zero (x : Reg) : regOf (x.bits &&& (0 : Reg).bits) = 0 := by
  revert x; decide

/-- The mask of families selected by the top four bits, on a word of format A. -/
theorem mask_formatA (op : Nibble) (nnn : Addr12) : formatA op nnn &&& 0xF000 = formatA op 0 := by
  have e : (0xF000 : Word) = formatA 0xF 0 := rfl
  have h : op &&& 0xF = op := by revert op; decide
  rw [e, and_formatA, h]; simp

/-- The same on a word of format XK. -/
theorem mask_formatXK (op : Nibble) (x : Reg) (kk : Byte) : formatXK op x kk &&& 0xF000 = formatXK op 0 0 := by
  have e : (0xF000 : Word) = formatXK 0xF 0 0 := rfl
  have h : op &&& 0xF = op := by revert op; decide
  rw [e, and_formatXK, h]; simp

/-- The same on a word of format XY. -/
theorem mask_formatXY (op : Nibble) (x y : Reg) (n : Nibble) :
    formatXY op x y n &&& 0xF000 = formatXY op 0 0 0 := by
  have e : (0xF000 : Word) = formatXY 0xF 0 0 0 := rfl
  have h : op &&& 0xF = op := by revert op; decide
  rw [e, and_formatXY, h]; simp

/-- The mask of family 8. -/
theorem mask_family8 (op : Nibble) (x y : Reg) (n : Nibble) :
    formatXY op x y n &&& 0xF00F = formatXY op 0 0 n := by
  have e : (0xF00F : Word) = formatXY 0xF 0 0 0xF := rfl
  have h : ∀ b : Nibble, b &&& 0xF = b := by decide
  rw [e, and_formatXY, h, h]; simp

/-- The mask of families E and F. -/
theorem mask_familyEF (op : Nibble) (x : Reg) (kk : Byte) : formatXK op x kk &&& 0xF0FF = formatXK op 0 kk := by
  have e : (0xF0FF : Word) = formatXK 0xF 0 0xFF := rfl
  have h : op &&& 0xF = op := by revert op; decide
  have h8 : kk &&& 0xFF = kk := by revert kk; decide
  rw [e, and_formatXK, h, h8]; simp

/-! ## One lemma per instruction -/

theorem cls : Statement .cls :=
  ⟨(1, 0x00E0, 0xFFFF), by simp [opcodeMap], rfl, rfl⟩
theorem ret : Statement .ret :=
  ⟨(2, 0x00EE, 0xFFFF), by simp [opcodeMap], rfl, rfl⟩
theorem jp (nnn : Addr12) : Statement (.jp nnn) :=
  ⟨(3, 0x1000, 0xF000), by simp [opcodeMap], rfl, mask_formatA 0x1 nnn⟩
theorem call (nnn : Addr12) : Statement (.call nnn) :=
  ⟨(4, 0x2000, 0xF000), by simp [opcodeMap], rfl, mask_formatA 0x2 nnn⟩
theorem seI (x : Reg) (kk : Byte) : Statement (.seI x kk) :=
  ⟨(5, 0x3000, 0xF000), by simp [opcodeMap], rfl, mask_formatXK 0x3 x kk⟩
theorem sneI (x : Reg) (kk : Byte) : Statement (.sneI x kk) :=
  ⟨(6, 0x4000, 0xF000), by simp [opcodeMap], rfl, mask_formatXK 0x4 x kk⟩
theorem seR (x y : Reg) (u : Nibble) : Statement (.seR x y u) :=
  ⟨(7, 0x5000, 0xF000), by simp [opcodeMap], rfl, mask_formatXY 0x5 x y u⟩
theorem ldI (x : Reg) (kk : Byte) : Statement (.ldI x kk) :=
  ⟨(8, 0x6000, 0xF000), by simp [opcodeMap], rfl, mask_formatXK 0x6 x kk⟩
theorem addI (x : Reg) (kk : Byte) : Statement (.addI x kk) :=
  ⟨(9, 0x7000, 0xF000), by simp [opcodeMap], rfl, mask_formatXK 0x7 x kk⟩
theorem ldR (x y : Reg) : Statement (.ldR x y) :=
  ⟨(10, 0x8000, 0xF00F), by simp [opcodeMap], rfl, mask_family8 0x8 x y 0x0⟩
theorem orR (x y : Reg) : Statement (.orR x y) :=
  ⟨(11, 0x8001, 0xF00F), by simp [opcodeMap], rfl, mask_family8 0x8 x y 0x1⟩
theorem andR (x y : Reg) : Statement (.andR x y) :=
  ⟨(12, 0x8002, 0xF00F), by simp [opcodeMap], rfl, mask_family8 0x8 x y 0x2⟩
theorem xorR (x y : Reg) : Statement (.xorR x y) :=
  ⟨(13, 0x8003, 0xF00F), by simp [opcodeMap], rfl, mask_family8 0x8 x y 0x3⟩
theorem addR (x y : Reg) : Statement (.addR x y) :=
  ⟨(14, 0x8004, 0xF00F), by simp [opcodeMap], rfl, mask_family8 0x8 x y 0x4⟩
theorem sub (x y : Reg) : Statement (.sub x y) :=
  ⟨(15, 0x8005, 0xF00F), by simp [opcodeMap], rfl, mask_family8 0x8 x y 0x5⟩
theorem shr (x y : Reg) : Statement (.shr x y) :=
  ⟨(16, 0x8006, 0xF00F), by simp [opcodeMap], rfl, mask_family8 0x8 x y 0x6⟩
theorem subn (x y : Reg) : Statement (.subn x y) :=
  ⟨(17, 0x8007, 0xF00F), by simp [opcodeMap], rfl, mask_family8 0x8 x y 0x7⟩
theorem shl (x y : Reg) : Statement (.shl x y) :=
  ⟨(18, 0x800E, 0xF00F), by simp [opcodeMap], rfl, mask_family8 0x8 x y 0xe⟩
theorem sneR (x y : Reg) (u : Nibble) : Statement (.sneR x y u) :=
  ⟨(19, 0x9000, 0xF000), by simp [opcodeMap], rfl, mask_formatXY 0x9 x y u⟩
theorem ldIdx (nnn : Addr12) : Statement (.ldIdx nnn) :=
  ⟨(20, 0xA000, 0xF000), by simp [opcodeMap], rfl, mask_formatA 0xa nnn⟩
theorem jpV0 (nnn : Addr12) : Statement (.jpV0 nnn) :=
  ⟨(21, 0xB000, 0xF000), by simp [opcodeMap], rfl, mask_formatA 0xb nnn⟩
theorem rnd (x : Reg) (kk : Byte) : Statement (.rnd x kk) :=
  ⟨(22, 0xC000, 0xF000), by simp [opcodeMap], rfl, mask_formatXK 0xc x kk⟩
theorem drw (x y : Reg) (n : Nibble) : Statement (.drw x y n) :=
  ⟨(23, 0xD000, 0xF000), by simp [opcodeMap], rfl, mask_formatXY 0xd x y n⟩
theorem skp (x : Reg) : Statement (.skp x) :=
  ⟨(24, 0xE09E, 0xF0FF), by simp [opcodeMap], rfl, mask_familyEF 0xe x 0x9e⟩
theorem sknp (x : Reg) : Statement (.sknp x) :=
  ⟨(25, 0xE0A1, 0xF0FF), by simp [opcodeMap], rfl, mask_familyEF 0xe x 0xa1⟩
theorem ldVxDt (x : Reg) : Statement (.ldVxDt x) :=
  ⟨(26, 0xF007, 0xF0FF), by simp [opcodeMap], rfl, mask_familyEF 0xf x 0x7⟩
theorem ldVxK (x : Reg) : Statement (.ldVxK x) :=
  ⟨(27, 0xF00A, 0xF0FF), by simp [opcodeMap], rfl, mask_familyEF 0xf x 0xa⟩
theorem ldDtVx (x : Reg) : Statement (.ldDtVx x) :=
  ⟨(28, 0xF015, 0xF0FF), by simp [opcodeMap], rfl, mask_familyEF 0xf x 0x15⟩
theorem ldStVx (x : Reg) : Statement (.ldStVx x) :=
  ⟨(29, 0xF018, 0xF0FF), by simp [opcodeMap], rfl, mask_familyEF 0xf x 0x18⟩
theorem addIdx (x : Reg) : Statement (.addIdx x) :=
  ⟨(30, 0xF01E, 0xF0FF), by simp [opcodeMap], rfl, mask_familyEF 0xf x 0x1e⟩
theorem ldF (x : Reg) : Statement (.ldF x) :=
  ⟨(31, 0xF029, 0xF0FF), by simp [opcodeMap], rfl, mask_familyEF 0xf x 0x29⟩
theorem ldB (x : Reg) : Statement (.ldB x) :=
  ⟨(32, 0xF033, 0xF0FF), by simp [opcodeMap], rfl, mask_familyEF 0xf x 0x33⟩
theorem stM (x : Reg) : Statement (.stM x) :=
  ⟨(33, 0xF055, 0xF0FF), by simp [opcodeMap], rfl, mask_familyEF 0xf x 0x55⟩
theorem ldM (x : Reg) : Statement (.ldM x) :=
  ⟨(34, 0xF065, 0xF0FF), by simp [opcodeMap], rfl, mask_familyEF 0xf x 0x65⟩

end Sys2Proof.Laws.OpcodeRow
end

