-- ==== Sys2Proof/Laws/Step.lean ====
section
/-! SUPPORT. What a step can do, said once (60_exceptions.md R238, R245). -/

namespace Sys2Proof.Machine

/-- A fetch with pc above 4094 gives PcOutOfRange. -/
theorem fetch_outOfRange (s : State) (h : s.pc.toNat > 4094) : fetch s = .error (.pcOutOfRange s.pc) := by
  simp only [fetch, if_pos h]

/-- A fetch of a legal word gives its instruction, with pc advanced. -/
theorem fetch_ok (s : State) (i : Instr) (h : Fetches s i) : fetch s = .ok (i, { s with pc := s.pc + 2 }) := by
  have hp : ¬ s.pc.toNat > 4094 := by have := h.1; omega
  simp only [fetch, if_neg hp, h.2]; rfl

/-- A fetch of an illegal word gives IllegalInstruction. -/
theorem fetch_illegal (s : State) (hp : s.pc.toNat ≤ 4094) (h : ∀ i, decode (fetchWord s) ≠ .ok i) :
    fetch s = .error (.illegalInstruction (fetchWord s)) := by
  have hp : ¬ s.pc.toNat > 4094 := by omega
  cases e : decode (fetchWord s) with
  | error r => simp only [fetch, if_neg hp, e]
  | ok i => exact absurd e (h i)

/-- Everything a `Step` of the engine can do. -/
theorem engineStep_cases (s : State) :
    (s.fault ≠ none ∧ engineStep s = .next s) ∨
    (s.fault = none ∧ s.pc.toNat > 4094 ∧
      engineStep s = .next { s with fault := some (.pcOutOfRange s.pc) }) ∨
    (s.fault = none ∧ s.pc.toNat ≤ 4094 ∧ (∀ i, decode (fetchWord s) ≠ .ok i) ∧
      engineStep s = .next { s with fault := some (.illegalInstruction (fetchWord s)) }) ∨
    (s.fault = none ∧ ∃ i, Fetches s i ∧ engineStep s = exec i { s with pc := s.pc + 2 }) := by
  by_cases hf : s.fault = none
  · right
    have hn : ¬ s.fault.isSome = true := by simp [hf]
    by_cases hp : s.pc.toNat > 4094
    · exact .inl ⟨hf, hp, by simp only [engineStep, if_neg hn, fetch_outOfRange s hp]; rfl⟩
    · right
      by_cases hd : ∃ i, decode (fetchWord s) = .ok i
      · obtain ⟨i, hd⟩ := hd
        have hi : Fetches s i := ⟨by omega, hd⟩
        exact .inr ⟨hf, i, hi, by simp only [engineStep, if_neg hn, fetch_ok s i hi]⟩
      · have hd : ∀ i, decode (fetchWord s) ≠ .ok i := fun i e => hd ⟨i, e⟩
        exact .inl ⟨hf, by omega, hd, by
          simp only [engineStep, if_neg hn, fetch_illegal s (by omega) hd]; rfl⟩
  · have hn : s.fault.isSome = true := Option.isSome_iff_ne_none.2 hf
    exact .inl ⟨hf, by simp only [engineStep, if_pos hn]⟩

/-- A step whose next event is `Step` is a step of the engine. -/
theorem step_of_step (s : State) (h : s.nextEvent = .step) : step s = engineStep s.dropEvent := by
  simp only [step, h, takeEvent]

/-- A step whose next event is `Tick`. -/
theorem step_of_tick (s : State) (h : s.nextEvent = .tick) : step s = .next (tick s.dropEvent) := by
  simp only [step, h, takeEvent]

/-- A step whose next event is `KeyPress(k)`. -/
theorem step_of_keyPress (s : State) (k : Key) (h : s.nextEvent = .keyPress k) :
    step s = .next (keyPress k s.dropEvent) := by
  simp only [step, h, takeEvent]

/-- A step whose next event is a boot. -/
theorem step_of_boot (s : State) (image : List Byte) (h : s.nextEvent = .boot image) :
    step s = boot image s.dropEvent := by
  simp only [step, h, takeEvent]

/-- With no event listed, the next one is `Step` and nothing is taken off the list. -/
theorem nextEvent_nil (s : State) (h : s.events = []) : s.nextEvent = .step ∧ s.dropEvent = s := by
  cases s; subst h; exact ⟨rfl, rfl⟩

/-- Everything `boot` answers. -/
theorem boot_cases (image : List Byte) (s : State) :
    (image.length ≤ 3584 ∧ boot image s = .next (load image (resetNow s))) ∨
    (image.length > 3584 ∧ boot image s = .refused (.imageTooLong image.length)) := by
  unfold boot imageWf
  by_cases h : image.length ≤ 3584
  · exact .inl ⟨h, by simp [h]⟩
  · exact .inr ⟨by omega, by simp [h]⟩

/-- A countdown lowers a nonzero timer by one and leaves 0. -/
theorem countDown_toNat (t : Byte) : (countDown t).toNat = t.toNat - 1 := by revert t; decide

/-- A key press sets its own line and no other. -/
theorem keyPress_line (k j : Key) (s : State) :
    (keyPress k s).keyLine j.val = (decide (j = k) || s.keyLine j.val) := by
  simp [keyLine_def, Fin.ext_iff, Bool.or_comm]

end Sys2Proof.Machine
end

