-- ==== Sys2Proof/Tests/Slice0.lean ====
section
/-! SUPPORT. The model's own tests: well-formedness, decoding of written-out words, one step of each instruction, and
a witness for every statement that has hypotheses. Every expected value is copied or calculated from the spec: the
names A-*, F-*, M-*, D-*, K-*, E-*, S*, P* are the vectors of 95_test_vectors.md. -/

namespace Sys2Proof.Tests

open Sys2Proof Sys2Proof.Machine

/-! ## Helpers -/

/-- The reset state with pc and the word there given, changed by `f`. -/
def start (pc w : Word) (f : State → State := id) : State := f (placeAtPc w { State.reset with pc := pc })

/-- What `f` finds in the next state, if there is one. -/
def find {α : Type} (r : Result) (f : State → α) : Option α :=
  match r with
  | .next t => some (f t)
  | _ => none

/-- The rows of the display with a lit cell; column c is bit c. -/
def litRows (t : State) : List (Nat × BitVec 64) :=
  ((List.range 32).map fun r => (r, rowCells t.disp r)).filter fun p => p.2 != 0

/-- V1, V2 and VF. -/
def v12f (t : State) : Byte × Byte × Byte := (t.getV 1, t.getV 2, t.getV 15)

/-- V1 and V2 set. -/
def with12 (a b : Byte) (s : State) : State := (s.setV 1 a).setV 2 b

/-! ## Well-formedness: the one check, on an image -/

theorem test_image_of_3584_bytes_is_wellFormed : imageWf (List.replicate 3584 0) = true := by
  rw [imageWf, List.length_replicate]; decide

theorem test_image_of_3585_bytes_is_refused : imageWf (List.replicate 3585 0) = false := by
  rw [imageWf, List.length_replicate]; decide

/-! ## Decoding: a word of every constructor, written out from the patterns of 30_encoding.md R96 -/

theorem test_decode_family0 : decode 0x00E0 = .ok .cls ∧ decode 0x00EE = .ok .ret := by decide

theorem test_decode_addresses :
    decode 0x1208 = .ok (.jp 0x208) ∧ decode 0x2FED = .ok (.call 0xFED) ∧
    decode 0xA300 = .ok (.ldIdx 0x300) ∧ decode 0xBFFF = .ok (.jpV0 0xFFF) := by decide

theorem test_decode_immediates :
    decode 0x332A = .ok (.seI 3 0x2A) ∧ decode 0x4F01 = .ok (.sneI 0xF 1) ∧ decode 0x6005 = .ok (.ldI 0 5) ∧
    decode 0x7E80 = .ok (.addI 0xE 0x80) ∧ decode 0xC30F = .ok (.rnd 3 0x0F) := by decide

theorem test_decode_register_skips :
    decode 0x5AB7 = .ok (.seR 0xA 0xB 7) ∧ decode 0x9AB7 = .ok (.sneR 0xA 0xB 7) := by decide

theorem test_decode_family8 :
    decode 0x8120 = .ok (.ldR 1 2) ∧ decode 0x8121 = .ok (.orR 1 2) ∧ decode 0x8122 = .ok (.andR 1 2) ∧
    decode 0x8123 = .ok (.xorR 1 2) ∧ decode 0x8124 = .ok (.addR 1 2) ∧ decode 0x8125 = .ok (.sub 1 2) ∧
    decode 0x8AB6 = .ok (.shr 0xA 0xB) ∧ decode 0x8127 = .ok (.subn 1 2) ∧ decode 0x812E = .ok (.shl 1 2) := by decide

theorem test_decode_draw_and_keys :
    decode 0xD01F = .ok (.drw 0 1 15) ∧ decode 0xE29E = .ok (.skp 2) ∧ decode 0xE2A1 = .ok (.sknp 2) := by decide

theorem test_decode_familyF :
    decode 0xF507 = .ok (.ldVxDt 5) ∧ decode 0xF40A = .ok (.ldVxK 4) ∧ decode 0xF015 = .ok (.ldDtVx 0) ∧
    decode 0xF118 = .ok (.ldStVx 1) ∧ decode 0xF21E = .ok (.addIdx 2) ∧ decode 0xF429 = .ok (.ldF 4) ∧
    decode 0xF033 = .ok (.ldB 0) ∧ decode 0xF255 = .ok (.stM 2) ∧ decode 0xFF65 = .ok (.ldM 15) := by decide

/-- The illegal words of 95_test_vectors.md 2.6. -/
theorem test_decode_illegal :
    ([0x0000, 0x00E1, 0x00EF, 0x00FE, 0x0123, 0x0FFF].map decode = List.replicate 6 (.error .illegalFamily0)) ∧
    ([0x8128, 0x812D, 0x812F].map decode = List.replicate 3 (.error .illegalFamily8)) ∧
    ([0xE000, 0xE19F, 0xE1A0].map decode = List.replicate 3 (.error .illegalFamilyE)) ∧
    ([0xF000, 0xF01F, 0xF0FF, 0xF166, 0xF175, 0xF185].map decode = List.replicate 6 (.error .illegalFamilyF)) ∧
    decodeBytes [0x12] = .error .truncated := by decide

theorem test_encode_written_out :
    encode (.seR 0xA 0xB 7) = 0x5AB7 ∧ encode (.shl 1 2) = 0x812E ∧ encode (.drw 0 1 15) = 0xD01F ∧
    encode (.jpV0 0xFFF) = 0xBFFF ∧ encodeBytes (.ldVxK 4) = [0xF4, 0x0A] := by decide

/-! ## Control transfer -/

theorem test_F1_jp : find (step (start 0x2F0 0x1208)) (·.pc) = some 0x208 := by decide

theorem test_F5_call_odd :
    find (step (start 0x205 0x2300)) (fun t => (t.stack[0], t.sp, t.pc)) = some (0x207, 1, 0x300) := by decide

theorem test_F8_call_overflow :
    find (step (start 0x200 0x2300 fun s => { s with sp := 16 })) (fun t => (t.fault, t.sp, t.pc)) =
      some (some .stackOverflow, 16, 0x200) := by decide

theorem test_F6_ret :
    find (step (start 0x20A 0x00EE fun s => { s with sp := 1, stack := s.stack.set 0 0x206 }))
      (fun t => (t.sp, t.pc, t.stack[0])) = some (0, 0x206, 0x206) := by decide

theorem test_F9_ret_underflow :
    find (step (start 0x200 0x00EE)) (fun t => (t.fault, t.pc)) = some (some .stackUnderflow, 0x200) := by decide

theorem test_S7_se_immediate :
    find (step (start 0x200 0x332A (·.setV 3 0x2A))) (·.pc) = some 0x204 ∧
    find (step (start 0x200 0x332A (·.setV 3 0x2B))) (·.pc) = some 0x202 := by decide

theorem test_F10_F11_sne_immediate :
    find (step (start 0x200 0x432A (·.setV 3 0x2A))) (·.pc) = some 0x202 ∧
    find (step (start 0x200 0x432A)) (·.pc) = some 0x204 := by decide

theorem test_F12_se_register :
    find (step (start 0x300 0x512F (with12 7 7))) (·.pc) = some 0x304 ∧
    find (step (start 0x300 0x5120 (with12 7 8))) (·.pc) = some 0x302 := by decide

theorem test_F13_sne_register :
    find (step (start 0x300 0x9120 (with12 7 8))) (·.pc) = some 0x304 ∧
    find (step (start 0x300 0x9127 (with12 7 7))) (·.pc) = some 0x302 := by decide

theorem test_F14_jp_v0 : find (step (start 0x202 0xB202 (·.setV 0 5))) (·.pc) = some 0x207 := by decide

theorem test_F15_jp_v0_is_not_masked :
    find (step (start 0x200 0xBFFF (·.setV 0 0xFF))) (·.pc) = some 0x10FE := by decide

theorem test_F17_last_legal_fetch :
    find (step (start 4094 0x6001)) (fun t => (t.getV 0, t.pc, t.fault)) = some (1, 0x1000, none) := by decide

theorem test_F18_fetch_at_4095 :
    find (step (start 4095 0x0000)) (fun t => (t.fault, t.pc)) = some (some (.pcOutOfRange 0xFFF), 0xFFF) := by decide

/-! ## Arithmetic -/

theorem test_A2_ld_immediate_vf :
    find (step (start 0x200 0x6FAB)) (fun t => (t.getV 15, t.pc)) = some (0xAB, 0x202) := by decide

theorem test_A4_add_immediate_no_flag : find (step (start 0x200 0x7101 (with12 0xFF 0))) v12f = some (0, 0, 0) := by decide

theorem test_A6_ld_register : find (step (start 0x200 0x8120 (with12 0 0x7F))) v12f = some (0x7F, 0x7F, 0) := by decide

theorem test_A7_or :
    find (step (start 0x200 0x8121 fun s => (with12 0xF0 0x0F s).setV 15 1)) v12f = some (0xFF, 0x0F, 1) := by decide

theorem test_A8_and :
    find (step (start 0x200 0x8122 fun s => (with12 0xF0 0x3C s).setV 15 1)) v12f = some (0x30, 0x3C, 1) := by decide

theorem test_A9_xor :
    find (step (start 0x200 0x8123 fun s => (with12 0xF0 0x3C s).setV 15 1)) v12f = some (0xCC, 0x3C, 1) := by decide

theorem test_S4_add : find (step (start 0x200 0x8124 (with12 250 10))) v12f = some (4, 10, 1) := by decide

theorem test_A14_add_flag_wins :
    find (step (start 0x200 0x8F14 fun s => (with12 100 0 s).setV 15 200)) v12f = some (100, 0, 1) := by decide

theorem test_A18_A19_sub :
    find (step (start 0x200 0x8125 (with12 10 20))) v12f = some (246, 20, 0) ∧
    find (step (start 0x200 0x8125 (with12 7 7))) v12f = some (0, 7, 1) := by decide

theorem test_A25_shr_ignores_y : find (step (start 0x200 0x8126 (with12 0x80 0xFF))) v12f = some (0x40, 0xFF, 0) := by decide

theorem test_S5_subn :
    find (step (start 0x200 0x8127 (with12 10 20))) v12f = some (10, 20, 1) ∧
    find (step (start 0x200 0x8127 (with12 20 10))) v12f = some (246, 10, 0) := by decide

theorem test_A28_shl : find (step (start 0x200 0x810E (with12 0x81 0))) v12f = some (0x02, 0, 1) := by decide

/-- A-28 to A-30: the flag of SHL under both readings, normalised and masked (decision D15). -/
theorem test_A28_shl_flag_both_readings :
    [0x81, 0x7F, 0x80].map (shlFlagOf true) = [1, 0, 1] ∧
    [0x81, 0x7F, 0x80].map (shlFlagOf false) = [0x80, 0, 0x80] := by decide

/-- A-35: under the mask 0 the result is 0 for every random byte. -/
theorem test_A35_rnd_mask_zero :
    find (step (start 0x200 0xC300 (·.setV 3 0x55))) (fun t => (t.getV 3, t.draws)) = some (0, 1) := by
  have h : Config.rnd 0 &&& 0 = 0 := by simp
  exact congrArg (fun b => some (b, 1)) h

/-! ## Index and memory -/

theorem test_M2_ld_i_clears_the_top :
    find (step (start 0x200 0xAFFF (·.setI 0xFFFF))) (·.i) = some 0x0FFF := by decide

theorem test_M4_M5_add_i :
    find (step (start 0x200 0xF21E fun s => (s.setI 0x0FFF).setV 2 1)) (fun t => (t.i, t.fault)) = some (0x1000, none) ∧
    find (step (start 0x200 0xF21E fun s => (s.setI 0xFFFF).setV 2 1)) (·.i) = some 0 := by decide

theorem test_M8_M10_ld_f :
    find (step (start 0x200 0xF429 (·.setV 4 0x0F))) (·.i) = some 0x4B ∧
    find (step (start 0x200 0xF429 (·.setV 4 0xFF))) (·.i) = some 1275 := by decide

theorem test_M15_ld_b_highest_base :
    find (step (start 0x200 0xF033 fun s => (s.setI 0xFFD).setV 0 255))
      (fun t => [0xFFD, 0xFFE, 0xFFF].map t.byteAt) = some [2, 5, 5] := by decide

theorem test_M16_ld_b_out_of_range :
    find (step (start 0x200 0xF033 fun s => (s.setI 0xFFE).setV 0 255))
      (fun t => (t.fault, t.byteAt 0xFFE, t.byteAt 0xFFF)) = some (some (.memOutOfRange 0x1000), 0, 0) := by decide

theorem test_M18_block_store :
    find (step (start 0x200 0xF255 fun s =>
        ((((with12 2 3 s).setV 0 1).setV 3 4).setI 0x400).writeBytes 0x403 [0xEE]))
      (fun t => ([0x400, 0x401, 0x402, 0x403].map t.byteAt, t.i)) = some ([1, 2, 3, 0xEE], 0x400) := by decide

theorem test_M21_block_store_out_of_range :
    find (step (start 0x200 0xFF55 fun s => (s.setV 0 1).setI 0xFF1)) (fun t => (t.fault, t.byteAt 0xFF1)) =
      some (some (.memOutOfRange 0x1000), 0) := by decide

theorem test_M22_block_load :
    find (step (start 0x200 0xF265 fun s => ((s.setI 0x300).setV 3 0x77).writeBytes 0x300 [2, 3, 4, 5]))
      (fun t => ([0, 1, 2, 3].map t.getV, t.i)) = some ([2, 3, 4, 0x77], 0x300) := by decide

theorem test_M24_block_load_out_of_range :
    find (step (start 0x200 0xF165 fun s => (s.setI 0xFFF).setV 0 9)) (fun t => (t.fault, t.getV 0)) =
      some (some (.memOutOfRange 0x1000), 9) := by decide

/-! ## Display -/

theorem test_D1_cls :
    find (step (start 0x200 0x00E0 fun s =>
        ({ s with disp := xorCell (xorCell s.disp 0 0 true) 31 63 true } : State).setV 15 1))
      (fun t => (litRows t, t.getV 15, t.presented.length)) = some ([], 1, 1) := by decide

/-- D-2 and S2: clipping at the right edge, and a collision. -/
theorem test_D2_S2_drw :
    find (step (start 0x200 0xD011 fun s =>
        (((s.setI 0x300).setV 0 62).setV 1 5).writeBytes 0x300 [0xFF])) (fun t => (litRows t, t.getV 15)) =
      some ([(5, 0xC000000000000000)], 0) ∧
    find (step (start 0x200 0xD011 fun s =>
        { (s.setI 0x300).writeBytes 0x300 [0xC0] with disp := xorCell s.disp 0 1 true }))
      (fun t => (litRows t, t.getV 15)) = some ([(0, 1)], 1) := by decide

/-- D-13, and D-9: the origin comes from the old VF; a range above 0xFFF changes nothing. -/
theorem test_D13_D9_drw :
    find (step (start 0x200 0xDF11 fun s =>
        (((s.setI 0x300).setV 15 3).setV 1 2).writeBytes 0x300 [0x80])) (fun t => (litRows t, t.getV 15)) =
      some ([(2, 8)], 0) ∧
    find (step (start 0x200 0xD012 fun s => (s.setI 0xFFF).setV 15 1))
      (fun t => (t.fault, litRows t, t.getV 15, t.presented.length)) =
      some (some (.memOutOfRange 0x1000), [], 1, 0) := by decide

/-! ## Timers and keys -/

theorem test_K1_ld_vx_dt :
    find (step (start 0x200 0xF507 (·.setDt 0x3C))) (fun t => (t.getV 5, t.dt)) = some (0x3C, 0x3C) := by decide

theorem test_K2_ld_dt_vx : find (step (start 0x200 0xF015 (·.setV 0 3))) (fun t => (t.dt, t.st)) = some (3, 0) := by decide

theorem test_K3_ld_st_vx :
    find (step (start 0x200 0xF118 (·.setV 1 2))) (fun t => (t.st, t.dt, t.toneRequest)) = some (2, 0, true) := by decide

theorem test_K4_K5_skp :
    find (step (start 0x210 0xE29E fun s => keyPress 10 (s.setV 2 10))) (fun t => (t.pc, t.keyLine 10)) =
      some (0x214, true) ∧
    find (step (start 0x210 0xE29E (·.setV 2 10))) (·.pc) = some 0x212 := by decide

theorem test_K8_skp_above_15 :
    find (step (start 0x210 0xE29E (·.setV 2 0x10))) (fun t => (t.fault, t.pc)) =
      some (some (.keyIndexOutOfRange 0x10), 0x210) := by decide

theorem test_K6_K7_sknp :
    find (step (start 0x210 0xE2A1 (·.setV 2 10))) (·.pc) = some 0x214 ∧
    find (step (start 0x210 0xE2A1 fun s => keyPress 10 (s.setV 2 10))) (·.pc) = some 0x212 := by decide

theorem test_K9_sknp_above_15 :
    find (step (start 0x210 0xE2A1 (·.setV 2 0xFF))) (·.fault) = some (some (.keyIndexOutOfRange 0xFF)) := by decide

theorem test_K10_ld_vx_k :
    find (step (start 0x220 0xF40A fun s => keyPress 3 (keyPress 9 (s.setV 4 0x55))))
      (fun t => (t.getV 4, t.pc, t.key)) = some (3, 0x222, 0x0208) := by decide

theorem test_K11_ld_vx_k_none : find (step (start 0x220 0xF40A (·.setV 4 0x55))) id = some (start 0x220 0xF40A (·.setV 4 0x55)) := by
  decide

/-! ## Events -/

/-- E-1, E-2: a tick lowers a timer that is not 0 and clears the key lines. -/
theorem test_tick :
    find (step { State.reset with dt := 1, st := 0, key := 0xFFFF, events := [.tick] })
      (fun t => (t.dt, t.st, t.key, t.events)) = some (0, 0, 0, []) := by decide

/-- P1: reset, load, and two steps. -/
theorem test_P1_boot_and_two_steps :
    find (Host.Core.run Sys2Proof.core 3
        { State.reset with v := Vector.replicate 16 9, events := [.boot [0x60, 0x05, 0xB2, 0x02]] })
      (fun t => (t.getV 0, t.getV 1, t.pc)) = some (5, 0, 0x207) := by decide

/-- At reset with nothing loaded the step fetches 0x0000 (70_reset_and_hazards.md R273, L = 0). -/
theorem test_reset_with_nothing_loaded :
    find (step State.reset) (·.fault) = some (some (.illegalInstruction 0)) := by decide

/-! ## Witnesses: a concrete state and operands that meet every hypothesis of a statement, clause by clause -/

theorem witness_EncodeOfDecodeIsTheWord : decode 0x9AB7 = .ok (.sneR 0xA 0xB 7) := by decide

theorem witness_DecodeAgreesWithTheOpcodeMap :
    ∃ row ∈ opcodeMap, row = (25, 0xE0A1, 0xF0FF) ∧ (0xEFA1 : Word) &&& row.2.2 = row.2.1 := by decide

theorem witness_StepRunsTheDecodedInstruction :
    ∃ s : State, s.nextEvent = .step ∧ Safe s ∧ s.pc.toNat ≤ 4094 ∧
      decode (s.byteAt s.pc.toNat ++ s.byteAt (s.pc.toNat + 1)) = .ok (.ldI 0 1) :=
  ⟨start 4094 0x6001, by decide, by unfold Safe; decide, by decide, by decide⟩

theorem witness_FetchAbove4094RaisesPcOutOfRange :
    ∃ s : State, s.nextEvent = .step ∧ Safe s ∧ s.pc.toNat > 4094 :=
  ⟨start 4095 0, by decide, by unfold Safe; decide, by decide⟩

/-- One word of each of the four sets, at pc 4094. -/
theorem witness_IllegalWordRaisesIllegalInstruction :
    (IllegalWord 0x0FFF ∧ IllegalWord 0x8FFF ∧ IllegalWord 0xEFFF ∧ IllegalWord 0xFFFF) ∧
    ∀ w : Word, ∃ s : State, s.nextEvent = .step ∧ Safe s ∧ s.pc.toNat ≤ 4094 ∧ fetchWord s = w := by
  refine ⟨by unfold IllegalWord; decide, fun w => ⟨start 4094 w, rfl, rfl, (by decide : (4094 : Word).toNat ≤ 4094), ?_⟩⟩
  have h : (start 4094 w).mem = Memory.writeList [] 4094 [firstByte w, secondByte w] := rfl
  simp only [fetchWord, State.byteAt, h, Memory.writeList]
  show wordOfBytes (Memory.read (Memory.write (Memory.write [] 4094 (firstByte w)) 4095 (secondByte w)) 4094)
    (Memory.read (Memory.write (Memory.write [] 4094 (firstByte w)) 4095 (secondByte w)) 4095) = w
  rw [read_write_other _ _ _ _ (by decide), read_write_self _ _ _ (by decide), read_write_self _ _ _ (by decide),
    wordOfBytes_bytes]

theorem witness_FaultedMachineIgnoresSteps :
    ∀ e ∈ ([.step, .tick, .keyPress 0, .keyPress 15] : List Event),
      ∃ s : State, s.fault ≠ none ∧ s.nextEvent = e := by
  intro e _
  exact ⟨{ State.reset with fault := some .stackUnderflow, events := [e] }, nofun, rfl⟩

/-- Each condition of R231 at its boundary: pc 4095; a word of family 0; sp 16; sp 0; I + 2 = 0x1000; V[x] 16. -/
theorem witness_StepFaultsExactlyWhenListed_fetch :
    FaultCondition (.pcOutOfRange 4095) (start 4095 0) ∧ FaultCondition (.illegalInstruction 0x0FFF) (start 4094 0x0FFF) := by
  unfold FaultCondition IllegalWord
  decide

theorem witness_StepFaultsExactlyWhenListed_stack :
    FaultCondition .stackOverflow { start 4094 0x2300 with sp := 16 } ∧
    FaultCondition .stackUnderflow (start 4094 0x00EE) :=
  ⟨⟨⟨0x300, by decide, by decide⟩, rfl⟩, ⟨by decide, by decide⟩, rfl⟩

theorem witness_StepFaultsExactlyWhenListed_data :
    FaultCondition (.memOutOfRange 0x1000) { start 4094 0xF033 with i := 0xFFE } ∧
    FaultCondition (.memOutOfRange 0xFFFF) { start 4094 0xD001 with i := 0xFFFF } ∧
    FaultCondition (.keyIndexOutOfRange 16) ((start 4094 0xE09E).setV 0 16) :=
  ⟨⟨⟨.ldB 0, 3, ⟨by decide, by decide⟩, rfl, by decide, by decide⟩, by decide⟩,
   ⟨⟨.drw 0 0 1, 1, ⟨by decide, by decide⟩, rfl, by decide, by decide⟩, by decide⟩,
   ⟨0, .inl ⟨by decide, by decide⟩, by decide⟩, by decide⟩

theorem witness_StepFaultsExactlyWhenListed_hypotheses :
    (start 4094 0x00EE).nextEvent = .step ∧ Safe (start 4094 0x00EE) := by
  unfold Safe; decide

theorem witness_StepStopsOnlyOnALongImage :
    ∃ (s : State) (image : List Byte), s.nextEvent = .boot image ∧ image.length > 3584 :=
  ⟨{ State.reset with events := [.boot (List.replicate 3585 0)] }, _, rfl, by rw [List.length_replicate]; decide⟩

/-- The second has fewer bits than the instruction: those above are zero. -/
theorem witness_PlacedWordIsFetchedNext :
    decodeTableWord 16 0x12F0 = some (.jp 0x2F0) ∧ decodeTableWord 8 0xE0 = some .cls := by decide

theorem witness_CallPushesTheReturnAddress :
    (({ State.reset with sp := 15 } : State).sp.val < 16) ∧ ({ State.reset with sp := 16 } : State).sp.val = 16 := by decide

theorem witness_ReturnPopsTheStack :
    (({ State.reset with sp := 1 } : State).sp.val = (0 : Fin 16).val + 1) ∧
    (({ State.reset with sp := 16 } : State).sp.val = (15 : Fin 16).val + 1) ∧ State.reset.sp.val = 0 := by decide

/-- A subroutine that has moved pc and written a register, from a call at sp 15. -/
theorem witness_ReturnUndoesCall :
    ∃ s t r : State, s.sp.val < 16 ∧ exec (.call 0x300) s = .next t ∧ r.stack = t.stack ∧ r.sp = t.sp ∧ r.pc ≠ t.pc :=
  ⟨{ State.reset with sp := 15 }, _, { State.reset with sp := 16, stack := State.reset.stack.set 15 0x200, pc := 0x310 },
    by decide, rfl, by decide, by decide, by decide⟩

theorem witness_DecimalDigitsToMemory :
    (State.reset.setI 0xFFD).i.toNat + 2 ≤ 0xFFF ∧ (State.reset.setI 0xFFE).i.toNat + 2 > 0xFFF := by decide

theorem witness_BlockStoreToMemory :
    (State.reset.setI 0xFF0).i.toNat + (15 : Reg).val ≤ 0xFFF ∧
    (State.reset.setI 0xFF1).i.toNat + (15 : Reg).val > 0xFFF := by decide

theorem witness_BlockLoadFromMemory :
    (State.reset.setI 0xFFF).i.toNat + (0 : Reg).val ≤ 0xFFF ∧
    (State.reset.setI 0x1000).i.toNat + (0 : Reg).val > 0xFFF := by decide

theorem witness_BlockStoreThenLoadRoundTrips :
    ∃ s t r : State, s.i.toNat + (15 : Reg).val ≤ 0xFFF ∧ exec (.stM 15) s = .next t ∧ r.mem = t.mem ∧ r.i = s.i ∧
      r.getV 0 ≠ s.getV 0 :=
  ⟨(State.reset.setI 0xFF0).setV 0 7, _, (State.reset.setI 0xFF0).writeBytes 0xFF0 [7], by decide, rfl, by decide,
    by decide, by decide⟩

theorem witness_StoreIsSeenByTheNextFetch :
    ∃ (s : State) (p : Word), s.i.toNat + (1 : Reg).val ≤ 0xFFF ∧ (0 : Reg) < 1 ∧ p.toNat = s.i.toNat + (0 : Reg).val :=
  ⟨State.reset.setI 0xFFE, 0xFFE, by decide, by decide, by decide⟩

theorem witness_CanonicalMemoriesWithTheSameBytesAreEqual :
    Memory.wf (Memory.write (Memory.write [] 0xFFF 1) 0 2) ∧ Memory.wf (Memory.write (Memory.write [] 0 2) 0xFFF 1) ∧
    Memory.write [] 0 2 ≠ [] ∧ ∀ a, Memory.read [(0, 2), (0xFFF, 1)] a = Memory.read (Memory.write (Memory.write [] 0xFFF 1) 0 2) a :=
  ⟨by decide, by decide, by decide, fun _ => rfl⟩

/-- n = 0 with I at its largest, n = 15 at the top of memory, and one above. -/
theorem witness_DrawXorsTheSprite :
    (((0 : Nibble) = 0 ∨ (State.reset.setI 0xFFFF).i.toNat + (0 : Nibble).toNat - 1 ≤ 0xFFF)) ∧
    (((15 : Nibble) = 0 ∨ (State.reset.setI 0xFF1).i.toNat + (15 : Nibble).toNat - 1 ≤ 0xFFF)) ∧
    (15 : Nibble) ≠ 0 ∧ (State.reset.setI 0xFF2).i.toNat + (15 : Nibble).toNat - 1 > 0xFFF := by decide

theorem witness_DrawOfHeightZero :
    ∃ s : State, s.nextEvent = .step ∧ Safe s ∧ Fetches s (.drw 0 1 0) ∧ s.i = 0xFFFF :=
  ⟨{ start 4094 0xD010 with i := 0xFFFF }, by decide, by unfold Safe; decide, ⟨by decide, by decide⟩, rfl⟩

theorem witness_DrawTwiceRestoresTheDisplay :
    (0 : Reg) ≠ flagReg ∧ (14 : Reg) ≠ flagReg ∧
    ((15 : Nibble) = 0 ∨ (State.reset.setI 0xFF1).i.toNat + (15 : Nibble).toNat - 1 ≤ 0xFFF) := by decide

theorem witness_KeyStateSkips :
    ((State.reset.setV 2 0).getV 2).toNat = (0 : Key).val ∧ ((State.reset.setV 2 15).getV 2).toNat = (15 : Key).val ∧
    ((State.reset.setV 2 16).getV 2).toNat > 15 := by decide

/-- Key 15 alone, keys 3 and 9, and none. -/
theorem witness_WaitForKey :
    ((keyPress 15 State.reset).key.getLsbD (15 : Key).val = true ∧
      ∀ j : Key, j < 15 → (keyPress 15 State.reset).key.getLsbD j.val = false) ∧
    ((keyPress 3 (keyPress 9 State.reset)).key.getLsbD (3 : Key).val = true ∧
      ∀ j : Key, j < 3 → (keyPress 3 (keyPress 9 State.reset)).key.getLsbD j.val = false) ∧
    ∀ k : Key, State.reset.key.getLsbD k.val = false := by decide

theorem witness_WaitingIdleAndFaultedRunsStandStill :
    (∃ s : State, s.events = [] ∧ Waiting s) ∧ (∃ s : State, s.events = [] ∧ Idle s) ∧
    ∃ s : State, s.events = [] ∧ s.fault ≠ none :=
  ⟨⟨start 4094 0xF40A, by decide, 4, ⟨by decide, by decide⟩, by decide⟩,
   ⟨start 0xFF0 0x1FF0, by decide, 0xFF0, ⟨by decide, by decide⟩, by decide⟩,
   ⟨{ State.reset with fault := some .stackUnderflow }, by decide, by decide⟩⟩

theorem witness_TickCountsDownAndClearsKeys : ({ State.reset with events := [.tick] } : State).nextEvent = .tick := by decide

theorem witness_KeyPressSetsItsLine :
    ({ State.reset with events := [.keyPress 15] } : State).nextEvent = .keyPress 15 := by decide

/-- The empty image, the longest one with its last byte, and one that is too long. -/
theorem witness_BootResetsAndLoadsTheImage (n : Nat) :
    ∃ (s : State) (image : List Byte), s.nextEvent = .boot image ∧ image.length = n ∧
      (n ≤ 3584 → image.length ≤ 3584) ∧ (n = 3585 → image.length > 3584) ∧ (n = 3584 → 3583 < image.length) :=
  ⟨{ State.reset with events := [.boot (List.replicate n 7)] }, _, rfl, List.length_replicate, by
    rw [List.length_replicate]; omega⟩

/-- A state that meets the invariant with memory listed, a return address at its bound and a fault held. -/
theorem witness_EveryStepKeepsTheInvariant :
    ∃ s t : State, Inv s ∧ step s = .next t ∧ s.mem ≠ [] ∧ s.fault ≠ none :=
  ⟨{ start 4094 0x2300 with sp := 16, stack := Vector.replicate 16 4096, fault := some .stackOverflow }, _,
    { memory := by decide, pcBound := by decide, returns := by decide
      faultTrue := fun f h => by
        obtain rfl : Fault.stackOverflow = f := Option.some.inj h
        exact ⟨⟨0x300, by decide, by decide⟩, rfl⟩ }, rfl, by decide, by decide⟩

/-- The flag's register is free of an instruction that writes no flag, and V(x + 1) of a block load. -/
theorem witness_RegistersChangeOnlyWhereNamed :
    (∃ t, exec (.ldI 0 5) State.reset = .next t ∧ ¬ mayWriteReg (.ldI 0 5) flagReg) ∧
    ∃ t, exec (.ldM 2) State.reset = .next t ∧ ¬ mayWriteReg (.ldM 2) 3 :=
  ⟨⟨_, rfl, by
    rintro (h | h | ⟨x, hx, -⟩)
    · exact absurd h (by decide)
    · exact absurd h.1 (by decide)
    · cases hx⟩, ⟨_, rfl, by
    rintro (h | h | ⟨x, hx, hk⟩)
    · cases h
    · exact absurd h.1 (by decide)
    · cases hx; exact absurd hk (by decide)⟩⟩

theorem witness_OnlyCallAndReturnReachTheStack :
    ∃ t, exec (.jp 0x300) State.reset = .next t ∧ Instr.jp 0x300 ≠ .ret ∧ ∀ nnn, Instr.jp 0x300 ≠ .call nnn :=
  ⟨_, rfl, by simp, by simp⟩

theorem witness_OnlyClearAndDrawReachTheDisplay :
    ∃ t, exec (.ldF 0) State.reset = .next t ∧ Instr.ldF 0 ≠ .cls ∧ ∀ x y n, Instr.ldF 0 ≠ .drw x y n :=
  ⟨_, rfl, by simp, by simp⟩

theorem witness_OnlyDigitsAndBlockStoreWriteMemory :
    ∃ t, exec (.ldM 15) State.reset = .next t ∧ (∀ x, Instr.ldM 15 ≠ .ldB x) ∧ ∀ x, Instr.ldM 15 ≠ .stM x :=
  ⟨_, rfl, by simp, by simp⟩

theorem witness_TimersKeysAndIndexChangeOnlyWhereNamed :
    ∃ t, exec .cls State.reset = .next t ∧ (∀ x, Instr.cls ≠ .ldDtVx x) ∧ (∀ x, Instr.cls ≠ .ldStVx x) ∧
      (∀ nnn, Instr.cls ≠ .ldIdx nnn) ∧ (∀ x, Instr.cls ≠ .addIdx x) ∧ ∀ x, Instr.cls ≠ .ldF x :=
  ⟨_, rfl, by simp, by simp, by simp, by simp, by simp⟩

theorem witness_SoundTimerIsNeverRead : ∃ t, exec (.ldStVx 1) (State.reset.setV 1 9) = .next t ∧ t.st ≠ State.reset.st :=
  ⟨_, rfl, by decide⟩

/-- A dead entry just above sp that differs, under a call that pushes there. -/
theorem witness_DeadStackEntriesAreUnobservable :
    ∃ (s t : State) (stack' : Vector Word 16), exec (.call 0x300) s = .next t ∧ stack' ≠ s.stack ∧
      ∀ j : Fin 16, j.val < s.sp.val → stack'[j] = s.stack[j] :=
  ⟨{ State.reset with sp := 15 }, _, State.reset.stack.set 15 9, rfl, by decide, by decide⟩

end Sys2Proof.Tests
end

/-! SUPPORT AND PROOFS. The state's own rules: what no instruction touches, what every step keeps, what no
instruction can observe, and reset. -/

namespace Sys2Proof.Machine

/-! ## `Completed` and `ExecFault` determine what `exec` answers -/

/-- An instruction completes in one state at most. -/
theorem completed_unique {i : Instr} {s t u : State} (ht : Completed i s t) (hu : Completed i s u) : t = u := by
  cases i with
  | ret =>
    obtain ⟨j, hj, rfl⟩ := ht
    obtain ⟨k, hk, rfl⟩ := hu
    obtain rfl : j = k := Fin.ext (by omega)
    rfl
  | call =>
    obtain ⟨_, rfl⟩ := ht
    obtain ⟨_, rfl⟩ := hu
    rfl
  | drw | skp | sknp | ldB | stM | ldM => exact ht.2.trans hu.2.symm
  | ldVxK x => simp only [Completed] at ht hu; cases h : lowestKey s <;> simp_all
  | _ => exact Eq.trans ht (Eq.symm hu)

/-- An instruction raises one fault at most: the lowest address above 0xFFF is one address. -/
theorem execFault_unique {i : Instr} {s : State} {f g : Fault} (hf : ExecFault i s f) (hg : ExecFault i s g) :
    f = g := by
  cases i with
  | ret | call | skp | sknp => exact hf.2.trans hg.2.symm
  | _ =>
    obtain ⟨_, a, -, -, -, ha, rfl⟩ := hf
    obtain ⟨_, b, -, -, -, hb, rfl⟩ := hg
    rw [BitVec.eq_of_toNat_eq (ha.trans hb.symm)]

/-- An instruction whose execute-time check fails does not complete. -/
theorem not_execFault_of_completed {i : Instr} {s t : State} {f : Fault} (h : Completed i s t) :
    ¬ ExecFault i s f := by
  intro hf
  cases i with
  | ret => obtain ⟨j, hj, -⟩ := h; have := hf.1; omega
  | call => obtain ⟨hlt, -⟩ := h; have := hf.1; omega
  | skp | sknp => have := h.1; have := hf.1; omega
  | drw | ldB | stM | ldM =>
    obtain ⟨len, a, hlen, hpos, hhigh, -⟩ := hf
    have hok := h.1
    simp only [accessLen, Option.some.injEq] at hlen
    omega
  | _ => obtain ⟨len, a, hlen, -⟩ := hf; cases hlen

/-- `exec` answers the state an instruction completes in. -/
theorem exec_of_completed {i : Instr} {s t : State} (h : Completed i s t) : exec i s = .next t := by
  rcases exec_answers i s with ⟨f, hf, -⟩ | ⟨u, hu, e⟩
  · exact absurd hf (not_execFault_of_completed h)
  · rw [completed_unique h hu, e]

/-- `exec` raises the fault of a failed execute-time check. -/
theorem exec_of_execFault {i : Instr} {s : State} {f : Fault} (h : ExecFault i s f) :
    exec i s = .next { s with pc := s.pc - 2, fault := some f } := by
  rcases exec_answers i s with ⟨g, hg, e⟩ | ⟨u, hu, -⟩
  · rw [execFault_unique h hg, e]
  · exact absurd h (not_execFault_of_completed hu)

/-- An execute-time check looks at V, I and sp alone. -/
theorem execFault_congr {i : Instr} {s t : State} {f : Fault} (h : ExecFault i s f) (hv : t.v = s.v) (hi : t.i = s.i)
    (hsp : t.sp = s.sp) : ExecFault i t f := by
  cases s; cases t; subst hv hi hsp
  cases i <;> exact h

/-! ## Frames: the writers of each piece of the state (10_state.md R22 to R30) -/

/-- The pieces of the state other than V and pc that an instruction leaves alone: each is kept by every
instruction but its writers. -/
structure Framed (i : Instr) (s t : State) : Prop where
  key : t.key = s.key
  dt : (∀ x, i ≠ .ldDtVx x) → t.dt = s.dt
  st : (∀ x, i ≠ .ldStVx x) → t.st = s.st
  index : (∀ nnn, i ≠ .ldIdx nnn) → (∀ x, i ≠ .addIdx x) → (∀ x, i ≠ .ldF x) → t.i = s.i
  stack : i ≠ .ret → (∀ nnn, i ≠ .call nnn) → t.stack = s.stack ∧ t.sp = s.sp
  display : i ≠ .cls → (∀ x y n, i ≠ .drw x y n) → t.disp = s.disp ∧ t.presented = s.presented
  mem : (∀ x, i ≠ .ldB x) → (∀ x, i ≠ .stM x) → t.mem = s.mem

/-- What an instruction that completes leaves alone. -/
theorem completed_framed {i : Instr} {s t : State} (h : Completed i s t) : Framed i s t := by
  cases i with
  | ret => obtain ⟨j, -, rfl⟩ := h; constructor <;> simp
  | call | drw | skp | sknp | ldB | stM | ldM => obtain ⟨-, rfl⟩ := h; constructor <;> simp
  | ldVxK => rcases h with ⟨k, -, rfl⟩ | ⟨-, rfl⟩ <;> constructor <;> simp
  | _ => subst h; constructor <;> simp

/-- What an instruction leaves alone, whether it completes or raises its fault. -/
theorem exec_framed {i : Instr} {s t : State} (h : exec i s = .next t) : Framed i s t := by
  rcases exec_cases h with ⟨f, -, rfl⟩ | hc
  · constructor <;> simp
  · exact completed_framed hc

/-- Settles O51: the stack's frame. -/
theorem onlyCallAndReturnReachTheStack : Obligations.OnlyCallAndReturnReachTheStack :=
  fun _ _ _ h => (exec_framed h).stack

/-- Settles O52: the display's frame. -/
theorem onlyClearAndDrawReachTheDisplay : Obligations.OnlyClearAndDrawReachTheDisplay :=
  fun _ _ _ h => (exec_framed h).display

/-- Settles O54: the frames of the key lines, the timers and I. -/
theorem timersKeysAndIndexChangeOnlyWhereNamed : Obligations.TimersKeysAndIndexChangeOnlyWhereNamed :=
  fun _ _ _ h => ⟨(exec_framed h).key, (exec_framed h).dt, (exec_framed h).st, (exec_framed h).index⟩

/-! ## The frame of the general registers (10_state.md R22) -/

theorem getV_setResultFlag_other (s : State) (x k : Reg) (r f : Byte) (hx : k ≠ x) (hf : k ≠ flagReg) :
    (s.setResultFlag x r f).getV k = s.getV k := by
  rw [State.setResultFlag, getV_setV_other _ _ _ _ hf, getV_setV_other _ _ _ _ hx]

/-- A register beyond the last one a block from V0 reaches keeps its value. -/
theorem getElem_setRegs_beyond (v : Vector Byte 16) (bs : List Byte) (k : Reg) (h : bs.length ≤ k.val) :
    (setRegs v 0 bs)[k] = v[k] := by
  rw [Fin.getElem_fin, setRegs_getElem, dif_neg (by omega), Fin.getElem_fin]

/-- An instruction that completes changes no register but those it may write. -/
theorem completed_getV {i : Instr} {s t : State} {k : Reg} (h : Completed i s t) (hk : ¬ mayWriteReg i k) :
    t.getV k = s.getV k := by
  obtain ⟨hdest, hflag, hblock⟩ : destReg i ≠ some k ∧ ¬ (writesFlag i = true ∧ k = flagReg) ∧
      ¬ ∃ x, i = .ldM x ∧ k ≤ x := by simpa only [mayWriteReg, not_or] using hk
  cases i with
  | ldI | addI | ldR | orR | andR | xorR | rnd | ldVxDt =>
    subst h
    exact getV_setV_other _ _ _ _ fun e => hdest (congrArg some e.symm)
  | addR | sub | shr | subn | shl =>
    subst h
    exact getV_setResultFlag_other _ _ _ _ _ (fun e => hdest (congrArg some e.symm)) fun e => hflag ⟨rfl, e⟩
  | drw x y n =>
    obtain ⟨-, rfl⟩ := h
    exact getV_setV_other s _ _ _ fun e => hflag ⟨rfl, e⟩
  | ldM x =>
    obtain ⟨-, rfl⟩ := h
    have hx : x < k := lt_of_not_ge fun hle => hblock ⟨x, rfl, hle⟩
    exact getElem_setRegs_beyond _ _ _ (by simpa using hx)
  | ldVxK =>
    rcases h with ⟨n, -, rfl⟩ | ⟨-, rfl⟩
    · exact getV_setV_other _ _ _ _ fun e => hdest (congrArg some e.symm)
    · rfl
  | ret => obtain ⟨j, -, rfl⟩ := h; rfl
  | call | skp | sknp | ldB | stM => obtain ⟨-, rfl⟩ := h; rfl
  | _ => subst h; rfl

/-- Settles O50: a fault writes no register, and `completed_getV` is the rest. -/
theorem registersChangeOnlyWhereNamed : Obligations.RegistersChangeOnlyWhereNamed := by
  intro i s t k h hk
  rcases exec_cases h with ⟨f, -, rfl⟩ | hc
  · rfl
  · exact completed_getV hc hk

/-! ## What no instruction can observe (10_state.md R25, R29) -/

/-- Completing an instruction other than LD ST, Vx does not depend on ST. -/
theorem completed_withSt {i : Instr} {s t : State} (h : Completed i s t) (hst : ∀ x, i ≠ .ldStVx x) (b : Byte) :
    Completed i { s with st := b } { t with st := b } := by
  cases i with
  | ldStVx x => exact absurd rfl (hst x)
  | ret => obtain ⟨j, hj, rfl⟩ := h; exact ⟨j, hj, rfl⟩
  | call | drw | skp | sknp | ldB | stM | ldM => obtain ⟨hok, rfl⟩ := h; exact ⟨hok, rfl⟩
  | ldVxK =>
    rcases h with ⟨k, hk, rfl⟩ | ⟨hk, rfl⟩
    · exact .inl ⟨k, hk, rfl⟩
    · exact .inr ⟨hk, rfl⟩
  | _ => subst h; rfl

/-- Settles O55: the execute-time checks do not look at ST, and completing does not depend on it; LD ST, Vx puts
Vx over it. -/
theorem soundTimerIsNeverRead : Obligations.SoundTimerIsNeverRead := by
  intro i s t b h
  by_cases hst : ∃ x, i = .ldStVx x
  · rw [if_pos hst]
    obtain ⟨x, rfl⟩ := hst
    cases h
    rfl
  · rw [if_neg hst]
    rcases exec_cases h with ⟨f, hf, rfl⟩ | hc
    · exact exec_of_execFault (execFault_congr hf rfl rfl rfl)
    · exact exec_of_completed (completed_withSt hc (fun x e => hst ⟨x, e⟩) b)

/-- Completing an instruction other than CALL and RET does not depend on the stack's entries. -/
theorem completed_withStack {i : Instr} {s t : State} (h : Completed i s t) (hret : i ≠ .ret)
    (hcall : ∀ nnn, i ≠ .call nnn) (entries : Vector Word 16) :
    Completed i { s with stack := entries } { t with stack := entries } := by
  cases i with
  | ret => exact absurd rfl hret
  | call nnn => exact absurd rfl (hcall nnn)
  | drw | skp | sknp | ldB | stM | ldM => obtain ⟨hok, rfl⟩ := h; exact ⟨hok, rfl⟩
  | ldVxK =>
    rcases h with ⟨k, hk, rfl⟩ | ⟨hk, rfl⟩
    · exact .inl ⟨k, hk, rfl⟩
    · exact .inr ⟨hk, rfl⟩
  | _ => subst h; rfl

/-- Pushing one value on two stacks that agree below sp gives two that agree below sp + 1. -/
theorem set_agrees_below_succ {p q : Vector Word 16} {n : Nat} (hn : n < 16)
    (h : ∀ j : Fin 16, j.val < n → q[j] = p[j]) (a : Word) (j : Fin 16) (hj : j.val < n + 1) :
    (q.set n a hn)[j] = (p.set n a hn)[j] := by
  by_cases e : n = j.val
  · subst e; simp
  · have hlt : j.val < n := by omega
    simpa [Vector.getElem_set_ne _ _ e] using h j hlt

/-- Settles O56: RET reads the entry below sp, CALL puts pc over the entry at sp, and no other instruction reads or
writes an entry. -/
theorem deadStackEntriesAreUnobservable : Obligations.DeadStackEntriesAreUnobservable := by
  intro i s t entries h hagree
  rcases exec_cases h with ⟨f, hf, rfl⟩ | hc
  · exact ⟨entries, exec_of_execFault (execFault_congr hf rfl rfl rfl), hagree⟩
  by_cases hret : i = .ret
  · subst hret
    obtain ⟨j, hj, rfl⟩ := hc
    have htop : entries[j] = s.stack[j] := hagree j (by omega)
    refine ⟨entries, exec_of_completed ⟨j, hj, by rw [htop]⟩, fun k hk => hagree k ?_⟩
    have hk : k.val < j.val := hk
    omega
  by_cases hcall : ∃ nnn, i = .call nnn
  · obtain ⟨nnn, rfl⟩ := hcall
    obtain ⟨hlt, rfl⟩ := hc
    exact ⟨entries.set s.sp.val s.pc hlt, exec_of_completed ⟨hlt, rfl⟩, set_agrees_below_succ hlt hagree s.pc⟩
  · have hcall : ∀ nnn, i ≠ .call nnn := fun nnn e => hcall ⟨nnn, e⟩
    obtain ⟨hstack, hsp⟩ := (completed_framed hc).stack hret hcall
    refine ⟨entries, exec_of_completed (completed_withStack hc hret hcall entries), ?_⟩
    rw [hstack, hsp]
    exact hagree

/-- Settles O16: the CALL leaves sp one higher, with the address after it on top. -/
theorem returnUndoesCall : Obligations.ReturnUndoesCall := by
  intro nnn s hlt
  refine ⟨_, exec_of_completed ⟨hlt, rfl⟩, fun r hstack hsp => ?_⟩
  refine exec_of_completed ⟨⟨s.sp.val, hlt⟩, by rw [hsp], ?_⟩
  have htop : r.stack[s.sp.val] = s.pc := by simp [hstack]
  rw [Fin.getElem_fin, htop]

/-! ## Reset (10_state.md R34) -/

/-- Above the glyph table reset leaves zeros. -/
theorem resetByte_above_glyphs {a : Nat} (h : 0x50 ≤ a) : resetByte a = 0 :=
  List.getD_eq_default _ _ h

/-- Settles O47: the glyph table byte by byte, the other fields as `State.reset` lists them. -/
theorem resetState : Obligations.ResetState := by
  refine ⟨rfl, fun a ha _ => resetByte_above_glyphs ha, rfl, by decide, rfl, rfl, by decide, cell_clear, rfl, rfl,
    by decide, rfl⟩

/-- Settles O49. -/
theorem resetMeetsTheInvariant : Obligations.ResetMeetsTheInvariant where
  memory := wf_nil
  pcBound := by decide
  returns := by decide
  faultTrue := nofun

/-! ## The rejected words (30_encoding.md R99) -/

theorem decodeFamily0_rejects {w : Word} (h : ∀ i, decodeFamily0 w ≠ .ok i) : w ≠ 0x00E0 ∧ w ≠ 0x00EE := by
  unfold decodeFamily0 at h
  refine ⟨fun e => ?_, fun e => ?_⟩ <;> subst e <;> exact h _ rfl

theorem decodeFamily8_rejects {x y : Reg} {n : Nibble} (h : ∀ i, decodeFamily8 x y n ≠ .ok i) :
    n.toNat ∈ [8, 9, 0xA, 0xB, 0xC, 0xD, 0xF] := by
  by_contra hn
  have hlisted : ∀ m : Nibble, m.toNat ∉ [8, 9, 0xA, 0xB, 0xC, 0xD, 0xF] →
      m = 0 ∨ m = 1 ∨ m = 2 ∨ m = 3 ∨ m = 4 ∨ m = 5 ∨ m = 6 ∨ m = 7 ∨ m = 0xE := by decide
  rcases hlisted n hn with rfl | rfl | rfl | rfl | rfl | rfl | rfl | rfl | rfl <;> exact h _ rfl

theorem decodeFamilyE_rejects {x : Reg} {kk : Byte} (h : ∀ i, decodeFamilyE x kk ≠ .ok i) :
    kk.toNat ∉ [0x9E, 0xA1] := by
  intro hk
  have hlisted : kk = 0x9E ∨ kk = 0xA1 := by simpa [BitVec.toNat_eq] using hk
  rcases hlisted with rfl | rfl <;> exact h _ rfl

theorem decodeFamilyF_rejects {x : Reg} {kk : Byte} (h : ∀ i, decodeFamilyF x kk ≠ .ok i) :
    kk.toNat ∉ [0x07, 0x0A, 0x15, 0x18, 0x1E, 0x29, 0x33, 0x55, 0x65] := by
  intro hk
  have hlisted : kk = 0x07 ∨ kk = 0x0A ∨ kk = 0x15 ∨ kk = 0x18 ∨ kk = 0x1E ∨ kk = 0x29 ∨ kk = 0x33 ∨ kk = 0x55 ∨
      kk = 0x65 := by simpa [BitVec.toNat_eq] using hk
  rcases hlisted with rfl | rfl | rfl | rfl | rfl | rfl | rfl | rfl | rfl <;> exact h _ rfl

/-- The families in which every word is legal. -/
theorem decode_ok_of_family {w : Word} (h0 : opField w ≠ 0) (h8 : opField w ≠ 8) (hE : opField w ≠ 14)
    (hF : opField w ≠ 15) : ∃ i, decode w = .ok i := by
  rcases nibble_cases (opField w) with h | h | h | h | h | h | h | h | h | h | h | h | h | h | h | h
  · exact absurd h h0
  · exact ⟨_, decode_family1 w h⟩
  · exact ⟨_, decode_family2 w h⟩
  · exact ⟨_, decode_family3 w h⟩
  · exact ⟨_, decode_family4 w h⟩
  · exact ⟨_, decode_family5 w h⟩
  · exact ⟨_, decode_family6 w h⟩
  · exact ⟨_, decode_family7 w h⟩
  · exact absurd h h8
  · exact ⟨_, decode_family9 w h⟩
  · exact ⟨_, decode_family10 w h⟩
  · exact ⟨_, decode_family11 w h⟩
  · exact ⟨_, decode_family12 w h⟩
  · exact ⟨_, decode_family13 w h⟩
  · exact absurd h hE
  · exact absurd h hF

/-- A word the decoder rejects is in one of the four sets of R99. -/
theorem illegalWord_of_rejected {w : Word} (h : ∀ i, decode w ≠ .ok i) : IllegalWord w := by
  have hop := opField_toNat w
  by_cases h0 : opField w = 0
  · rw [decode_family0 w h0] at h
    rw [h0] at hop
    exact .inl ⟨by simp at hop; omega, decodeFamily0_rejects h⟩
  by_cases h8 : opField w = 8
  · rw [decode_family8 w h8] at h
    rw [h8] at hop
    exact .inr (.inl ⟨hop.symm, nField_toNat w ▸ decodeFamily8_rejects h⟩)
  by_cases hE : opField w = 14
  · rw [decode_family14 w hE] at h
    rw [hE] at hop
    exact .inr (.inr (.inl ⟨hop.symm, kkField_toNat w ▸ decodeFamilyE_rejects h⟩))
  by_cases hF : opField w = 15
  · rw [decode_family15 w hF] at h
    rw [hF] at hop
    exact .inr (.inr (.inr ⟨hop.symm, kkField_toNat w ▸ decodeFamilyF_rejects h⟩))
  obtain ⟨i, hi⟩ := decode_ok_of_family h0 h8 hE hF
  exact absurd hi (h i)

/-! ## The invariant (60_exceptions.md R231) -/

/-- A fault's condition looks at V, I, pc, sp and memory alone. -/
theorem faultCondition_congr {f : Fault} {s t : State} (h : FaultCondition f s) (hv : t.v = s.v) (hi : t.i = s.i)
    (hpc : t.pc = s.pc) (hsp : t.sp = s.sp) (hmem : t.mem = s.mem) : FaultCondition f t := by
  cases s; cases t; subst hv hi hpc hsp hmem
  cases f <;> exact h

/-- An event that changes timers, key lines, display or event list keeps the invariant. -/
theorem Inv.congr {s t : State} (h : Inv s) (hv : t.v = s.v) (hi : t.i = s.i) (hpc : t.pc = s.pc) (hsp : t.sp = s.sp)
    (hmem : t.mem = s.mem) (hstack : t.stack = s.stack) (hfault : t.fault = s.fault) : Inv t where
  memory := hmem ▸ h.memory
  pcBound := hpc ▸ h.pcBound
  returns := hstack ▸ h.returns
  faultTrue f hf := faultCondition_congr (h.faultTrue f (hfault ▸ hf)) hv hi hpc hsp hmem

/-- Taking a fault whose condition holds keeps the invariant: the fault changes no field its condition looks at. -/
theorem Inv.raised {s : State} {f : Fault} (h : Inv s) (hf : FaultCondition f s) : Inv { s with fault := some f } where
  memory := h.memory
  pcBound := h.pcBound
  returns := h.returns
  faultTrue g hg := by
    cases hg
    exact faultCondition_congr hf rfl rfl rfl rfl rfl

/-- The fault an instruction raises after its fetch has its condition true in the state before the step. -/
theorem faultCondition_of_execFault {i : Instr} {s : State} {f : Fault} (hi : Fetches s i)
    (hf : ExecFault i { s with pc := s.pc + 2 } f) : FaultCondition f s := by
  cases i with
  | ret => obtain ⟨hsp, rfl⟩ := hf; exact ⟨hi, hsp⟩
  | call nnn => obtain ⟨hsp, rfl⟩ := hf; exact ⟨⟨nnn, hi⟩, hsp⟩
  | skp x => obtain ⟨hk, rfl⟩ := hf; exact ⟨⟨x, .inl hi, rfl⟩, hk⟩
  | sknp x => obtain ⟨hk, rfl⟩ := hf; exact ⟨⟨x, .inr hi, rfl⟩, hk⟩
  | _ =>
    obtain ⟨len, a, hlen, hpos, hhigh, ha, rfl⟩ := hf
    exact ⟨⟨_, len, hi, hlen, hpos, hhigh⟩, ha⟩

/-! ### An instruction that completes -/

/-- Memory stays in its canonical form. -/
theorem completed_wf {i : Instr} {s t : State} (h : Completed i s t) (hs : Memory.wf s.mem) : Memory.wf t.mem := by
  cases i with
  | ldB | stM => obtain ⟨-, rfl⟩ := h; exact wf_writeList _ _ _ hs
  | _ => exact (completed_framed h).mem (by simp) (by simp) ▸ hs

/-- Every return address stays at most 4096: the only one pushed is pc, the address after a CALL that was fetched. -/
theorem completed_returns {i : Instr} {s t : State} (h : Completed i s t) (hpc : s.pc.toNat ≤ 4096)
    (hs : ∀ j : Fin 16, s.stack[j].toNat ≤ 4096) (j : Fin 16) : t.stack[j].toNat ≤ 4096 := by
  cases i with
  | ret => obtain ⟨k, -, rfl⟩ := h; exact hs j
  | call nnn =>
    obtain ⟨hlt, rfl⟩ := h
    simp only [Fin.getElem_fin, Vector.getElem_set]
    split
    · exact hpc
    · exact hs j
  | _ => exact ((completed_framed h).stack (by simp) (by simp)).1 ▸ hs j

theorem toNat_skip_le {p : Word} (c : Prop) [Decidable c] (hp : p.toNat ≤ 4096) :
    (if c then p + 2 else p).toNat ≤ 0x10FE := by
  split
  · rw [BitVec.toNat_add]; simp; omega
  · omega

/-- pc after an instruction that completes: JP V0 reaches furthest, to at most 0xFFF + 0xFF. -/
theorem completed_pc_le {i : Instr} {s t : State} (h : Completed i s t) (hlo : 2 ≤ s.pc.toNat)
    (hpc : s.pc.toNat ≤ 4096) (hs : ∀ j : Fin 16, s.stack[j].toNat ≤ 4096) : t.pc.toNat ≤ 0x10FE := by
  have hkeep : s.pc.toNat ≤ 0x10FE := by omega
  cases i with
  | ret =>
    obtain ⟨j, -, rfl⟩ := h
    exact Nat.le_trans (hs j) (by omega)
  | jp nnn => subst h; exact (absAddr_toNat nnn).trans_le (by omega)
  | call nnn => obtain ⟨-, rfl⟩ := h; exact (absAddr_toNat nnn).trans_le (by omega)
  | jpV0 nnn =>
    subst h
    have hoffset := (s.getV 0).isLt
    exact (offsetTarget_toNat s nnn).trans_le (by omega)
  | seI | sneI | seR | sneR => subst h; exact toNat_skip_le _ hpc
  | skp | sknp => obtain ⟨-, rfl⟩ := h; exact toNat_skip_le _ hpc
  | ldVxK =>
    rcases h with ⟨k, -, rfl⟩ | ⟨-, rfl⟩
    · exact hkeep
    · simp only; bv_omega
  | drw | ldB | stM | ldM => obtain ⟨-, rfl⟩ := h; exact hkeep
  | _ => subst h; exact hkeep

/-- An instruction that completes after its fetch, in a run without a fault, keeps the invariant. -/
theorem inv_completed {i : Instr} {s t : State} (h : Inv s) (hfault : s.fault = none) (hfetch : s.pc.toNat ≤ 4094)
    (hc : Completed i { s with pc := s.pc + 2 } t) : Inv t := by
  have hpc : (s.pc + 2).toNat = s.pc.toNat + 2 := by bv_omega
  have hle : (s.pc + 2).toNat ≤ 4096 := by omega
  have hlo : 2 ≤ (s.pc + 2).toNat := by omega
  exact {
    memory := completed_wf hc h.memory
    pcBound := completed_pc_le hc hlo hle h.returns
    returns := completed_returns hc hle h.returns
    faultTrue := fun f hf => by
      rw [(completed_fault_events hc).1, hfault] at hf
      cases hf }

/-! ### The events -/

/-- A `Step` of the engine keeps the invariant: it does nothing, raises a fault whose condition holds, or executes the
fetched instruction. -/
theorem inv_engineStep {s t : State} (h : Inv s) (e : engineStep s = .next t) : Inv t := by
  rcases engineStep_cases s with ⟨-, e'⟩ | ⟨-, hp, e'⟩ | ⟨-, hp, hd, e'⟩ | ⟨hfault, i, hi, e'⟩ <;> rw [e'] at e
  · cases e; exact h
  · cases e; exact h.raised ⟨hp, rfl⟩
  · cases e; exact h.raised ⟨hp, rfl, illegalWord_of_rejected hd⟩
  · rcases exec_cases e with ⟨f, hf, rfl⟩ | hc
    · simp only [BitVec.add_sub_cancel]
      exact h.raised (faultCondition_of_execFault hi hf)
    · exact inv_completed h hfault hi.1 hc

/-- A boot makes the invariant hold, whatever the state before it. -/
theorem inv_boot {image : List Byte} {s t : State} (e : boot image s = .next t) : Inv t := by
  rcases boot_cases image s with ⟨-, e'⟩ | ⟨-, e'⟩ <;> rw [e'] at e <;> cases e
  exact {
    memory := wf_writeList _ _ _ wf_nil
    pcBound := resetMeetsTheInvariant.pcBound
    returns := resetMeetsTheInvariant.returns
    faultTrue := nofun }

/-- Settles O48: one lemma for each event. -/
theorem everyStepKeepsTheInvariant : Obligations.EveryStepKeepsTheInvariant := by
  intro s t h e
  have hdrop : Inv s.dropEvent := h.congr rfl rfl rfl rfl rfl rfl rfl
  cases hev : s.nextEvent with
  | step => rw [step_of_step s hev] at e; exact inv_engineStep hdrop e
  | tick => rw [step_of_tick s hev] at e; cases e; exact hdrop.congr rfl rfl rfl rfl rfl rfl rfl
  | keyPress k => rw [step_of_keyPress s k hev] at e; cases e; exact hdrop.congr rfl rfl rfl rfl rfl rfl rfl
  | boot image => rw [step_of_boot s image hev] at e; exact inv_boot e

end Sys2Proof.Machine

/-! PROOFS. Memory (20_memory.md): who writes it, a store seen by the next fetch, and equality of canonical memories. -/

namespace Sys2Proof.Machine

/-! ## The frame of memory (20_memory.md R67) -/

/-- Settles O53: the writers' frame, read byte by byte. -/
theorem onlyDigitsAndBlockStoreWriteMemory : Obligations.OnlyDigitsAndBlockStoreWriteMemory := by
  intro i s t h hdigits hstore a
  rw [byteAt_def, byteAt_def, (exec_framed h).mem hdigits hstore]

/-! ## A store is seen by the next fetch (20_memory.md R73) -/

/-- Where a block store of V0..Vx from I has put Vk, memory reads as Vk. -/
theorem read_writeList_blockRegs (s : State) {x k : Reg} (hx : s.i.toNat + x.val ≤ 0xFFF) (hk : k ≤ x) :
    Memory.read (Memory.writeList s.mem s.i.toNat (blockRegs s x)) (s.i.toNat + k.val) = s.getV k := by
  have hlt : k.val < (blockRegs s x).length := by
    rw [blockRegs_length]
    exact Nat.lt_succ_of_le hk
  have hfits : s.i.toNat + (blockRegs s x).length ≤ 4096 := by
    rw [blockRegs_length]
    omega
  rw [read_writeList_inside _ _ _ _ hlt hfits, blockRegs_getElem]
  rfl

/-- Settles O34: the high byte of the word fetched at I + k is Vk, and the low byte, one address on, is V(k+1). -/
theorem storeIsSeenByTheNextFetch : Obligations.StoreIsSeenByTheNextFetch := by
  intro x k s hx hk
  refine ⟨_, exec_of_completed ⟨hx, rfl⟩, fun p hp => ?_⟩
  have hnext : (k + 1).val = k.val + 1 := Fin.val_add_one_of_lt (lt_of_lt_of_le hk (Fin.le_last x))
  have hnextle : k + 1 ≤ x := by
    rw [Fin.le_def, hnext]
    exact hk
  simp only [fetchWord, wordOfBytes, byteAt_def, hp, Nat.add_assoc, ← hnext]
  rw [read_writeList_blockRegs s hx hk.le, read_writeList_blockRegs s hx hnextle]

/-! ## A canonical memory is its bytes (20_memory.md R60) -/

/-- A byte that differs from the reset content is listed. -/
theorem mem_of_read_ne_reset {m : List Host.Cell} {a : Nat} (h : Memory.read m a ≠ resetByte a) :
    (a, Memory.read m a) ∈ m := by
  induction m with
  | nil => exact absurd rfl h
  | cons d m ih =>
    unfold Memory.read at h ⊢
    split at h
    · next e => subst e; simp
    · next e => rw [if_neg e]; exact List.mem_cons_of_mem _ (ih h)

/-- A listed cell is what its address reads as, since rising addresses list an address once. -/
theorem read_of_mem {m : List Host.Cell} (hs : m.Pairwise fun c d => c.1 < d.1) {c : Host.Cell} (hc : c ∈ m) :
    Memory.read m c.1 = c.2 := by
  induction m with
  | nil => cases hc
  | cons d m ih =>
    obtain ⟨hd, hm⟩ := List.pairwise_cons.1 hs
    unfold Memory.read
    rcases List.mem_cons.1 hc with rfl | hc
    · exact if_pos rfl
    · rw [if_neg (hd c hc).ne, ih hm hc]

/-- What is listed in a canonical memory is settled by what it reads as. -/
theorem mem_iff_read_of_wf {m : List Host.Cell} (h : Memory.wf m) (c : Host.Cell) :
    c ∈ m ↔ Memory.read m c.1 = c.2 ∧ c.2 ≠ resetByte c.1 := by
  obtain ⟨hsorted, hcells⟩ := h
  constructor
  · exact fun hc => ⟨read_of_mem hsorted hc, (hcells c hc).2⟩
  · rintro ⟨hread, hne⟩
    rw [← hread] at hne
    have hlisted := mem_of_read_ne_reset hne
    rwa [hread] at hlisted

/-- Settles O35: memories that read alike list the same cells, and rising addresses leave one order for them. -/
theorem canonicalMemoriesWithTheSameBytesAreEqual : Obligations.CanonicalMemoriesWithTheSameBytesAreEqual := by
  intro m m' h h' hread
  have hsame (c : Host.Cell) : c ∈ m ↔ c ∈ m' := by
    rw [mem_iff_read_of_wf h, mem_iff_read_of_wf h', hread]
  have : Std.Irrefl fun c d : Host.Cell => c.1 < d.1 := ⟨fun c => lt_irrefl c.1⟩
  have : Std.Antisymm fun c d : Host.Cell => c.1 < d.1 := ⟨fun _ _ hcd hdc => absurd hcd hdc.asymm⟩
  exact h.1.eq_of_mem_iff h'.1 hsame

end Sys2Proof.Machine

/-! PROOFS. Encoding (30_encoding.md): the round trips of the decoder, its agreement with the opcode map, the rejected
words, and the step that runs the decoded instruction. -/

namespace Sys2Proof.Machine

/-! ## Decode of encode (30_encoding.md R104) -/

/-- A word of family 8 written out in its fields is decoded by its low nibble. -/
theorem decode_formatXY_8 (x y : Reg) (n : Nibble) : decode (formatXY 8 x y n) = decodeFamily8 x y n := by
  simp [decode_family8]

/-- A word of family E written out in its fields is decoded by its low byte. -/
theorem decode_formatXK_14 (x : Reg) (kk : Byte) : decode (formatXK 14 x kk) = decodeFamilyE x kk := by
  simp [decode_family14]

/-- A word of family F written out in its fields is decoded by its low byte. -/
theorem decode_formatXK_15 (x : Reg) (kk : Byte) : decode (formatXK 15 x kk) = decodeFamilyF x kk := by
  simp [decode_family15]

/-- Settles O1: the leading nibble selects the family, and the family's secondary literal, where it has one, the
instruction; the fields of the format are its operands. -/
theorem decodeOfEncodeIsTheInstruction : Obligations.DecodeOfEncodeIsTheInstruction := by
  intro i
  cases i with
  | cls | ret => rfl
  | jp nnn => simp [encode, decode_family1]
  | call nnn => simp [encode, decode_family2]
  | seI x kk => simp [encode, decode_family3]
  | sneI x kk => simp [encode, decode_family4]
  | seR x y u => simp [encode, decode_family5]
  | ldI x kk => simp [encode, decode_family6]
  | addI x kk => simp [encode, decode_family7]
  | ldR x y | orR x y | andR x y | xorR x y | addR x y | sub x y | shr x y | subn x y | shl x y =>
    exact decode_formatXY_8 x y _
  | sneR x y u => simp [encode, decode_family9]
  | ldIdx nnn => simp [encode, decode_family10]
  | jpV0 nnn => simp [encode, decode_family11]
  | rnd x kk => simp [encode, decode_family12]
  | drw x y n => simp [encode, decode_family13]
  | skp x | sknp x => exact decode_formatXK_14 x _
  | ldVxDt x | ldVxK x | ldDtVx x | ldStVx x | addIdx x | ldF x | ldB x | stM x | ldM x =>
    exact decode_formatXK_15 x _

/-! ## Encode of decode (30_encoding.md R92, R98) -/

theorem encode_of_decodeFamily0 {w : Word} {i : Instr} (h : decodeFamily0 w = .ok i) : encode i = w := by
  unfold decodeFamily0 at h
  split_ifs at h with hw hw <;> cases h <;> exact hw.symm

theorem encode_of_decodeFamily8 {x y : Reg} {n : Nibble} {i : Instr} (h : decodeFamily8 x y n = .ok i) :
    encode i = formatXY 8 x y n := by
  unfold decodeFamily8 at h
  split_ifs at h with hn hn hn hn hn hn hn hn hn <;> cases h <;> subst hn <;> rfl

theorem encode_of_decodeFamilyE {x : Reg} {kk : Byte} {i : Instr} (h : decodeFamilyE x kk = .ok i) :
    encode i = formatXK 14 x kk := by
  unfold decodeFamilyE at h
  split_ifs at h with hk hk <;> cases h <;> subst hk <;> rfl

theorem encode_of_decodeFamilyF {x : Reg} {kk : Byte} {i : Instr} (h : decodeFamilyF x kk = .ok i) :
    encode i = formatXK 15 x kk := by
  unfold decodeFamilyF at h
  split_ifs at h with hk hk hk hk hk hk hk hk hk <;> cases h <;> subst hk <;> rfl

/-- Settles O2: the operands are the word's fields, and a word is made of its fields. -/
theorem encodeOfDecodeIsTheWord : Obligations.EncodeOfDecodeIsTheWord := by
  intro w i h
  have hA := formatA_fields w
  have hXK := formatXK_fields w
  have hXY := formatXY_fields w
  rcases nibble_cases (opField w) with e | e | e | e | e | e | e | e | e | e | e | e | e | e | e | e <;>
    rw [e] at hA hXK hXY
  · exact encode_of_decodeFamily0 (decode_family0 w e ▸ h)
  · cases (decode_family1 w e).symm.trans h; exact hA
  · cases (decode_family2 w e).symm.trans h; exact hA
  · cases (decode_family3 w e).symm.trans h; exact hXK
  · cases (decode_family4 w e).symm.trans h; exact hXK
  · cases (decode_family5 w e).symm.trans h; exact hXY
  · cases (decode_family6 w e).symm.trans h; exact hXK
  · cases (decode_family7 w e).symm.trans h; exact hXK
  · exact (encode_of_decodeFamily8 (decode_family8 w e ▸ h)).trans hXY
  · cases (decode_family9 w e).symm.trans h; exact hXY
  · cases (decode_family10 w e).symm.trans h; exact hA
  · cases (decode_family11 w e).symm.trans h; exact hA
  · cases (decode_family12 w e).symm.trans h; exact hXK
  · cases (decode_family13 w e).symm.trans h; exact hXY
  · exact (encode_of_decodeFamilyE (decode_family14 w e ▸ h)).trans hXK
  · exact (encode_of_decodeFamilyF (decode_family15 w e ▸ h)).trans hXK

/-! ## The opcode map (30_encoding.md R96) -/

/-- Every instruction's word matches its own row of the opcode map. -/
theorem encode_matches_opcodeRow (i : Instr) : Laws.OpcodeRow.Statement i := by
  cases i with
  | cls => exact Laws.OpcodeRow.cls
  | ret => exact Laws.OpcodeRow.ret
  | jp nnn => exact Laws.OpcodeRow.jp nnn
  | call nnn => exact Laws.OpcodeRow.call nnn
  | seI x kk => exact Laws.OpcodeRow.seI x kk
  | sneI x kk => exact Laws.OpcodeRow.sneI x kk
  | seR x y u => exact Laws.OpcodeRow.seR x y u
  | ldI x kk => exact Laws.OpcodeRow.ldI x kk
  | addI x kk => exact Laws.OpcodeRow.addI x kk
  | ldR x y => exact Laws.OpcodeRow.ldR x y
  | orR x y => exact Laws.OpcodeRow.orR x y
  | andR x y => exact Laws.OpcodeRow.andR x y
  | xorR x y => exact Laws.OpcodeRow.xorR x y
  | addR x y => exact Laws.OpcodeRow.addR x y
  | sub x y => exact Laws.OpcodeRow.sub x y
  | shr x y => exact Laws.OpcodeRow.shr x y
  | subn x y => exact Laws.OpcodeRow.subn x y
  | shl x y => exact Laws.OpcodeRow.shl x y
  | sneR x y u => exact Laws.OpcodeRow.sneR x y u
  | ldIdx nnn => exact Laws.OpcodeRow.ldIdx nnn
  | jpV0 nnn => exact Laws.OpcodeRow.jpV0 nnn
  | rnd x kk => exact Laws.OpcodeRow.rnd x kk
  | drw x y n => exact Laws.OpcodeRow.drw x y n
  | skp x => exact Laws.OpcodeRow.skp x
  | sknp x => exact Laws.OpcodeRow.sknp x
  | ldVxDt x => exact Laws.OpcodeRow.ldVxDt x
  | ldVxK x => exact Laws.OpcodeRow.ldVxK x
  | ldDtVx x => exact Laws.OpcodeRow.ldDtVx x
  | ldStVx x => exact Laws.OpcodeRow.ldStVx x
  | addIdx x => exact Laws.OpcodeRow.addIdx x
  | ldF x => exact Laws.OpcodeRow.ldF x
  | ldB x => exact Laws.OpcodeRow.ldB x
  | stM x => exact Laws.OpcodeRow.stM x
  | ldM x => exact Laws.OpcodeRow.ldM x

/-- A word that matches under the mask of the top four bits has the match's family. -/
theorem opField_of_mask {w m : Word} (h : w &&& 0xF000 = m) : opField w = opField m := by
  rw [← h, ← formatXY_fields w, Laws.OpcodeRow.mask_formatXY]
  simp

/-- A word that matches a row of family 8 is decoded by that row's low nibble. -/
theorem decode_of_mask_family8 {w m : Word} (h : w &&& 0xF00F = m) (hm : opField m = 8) :
    decode w = decodeFamily8 (regOf (xField w)) (regOf (yField w)) (nField m) := by
  have hmatch : formatXY (opField w) 0 0 (nField w) = m := by
    rw [← h, ← Laws.OpcodeRow.mask_family8, formatXY_fields]
  subst hmatch
  simpa using decode_family8 w (by simpa using hm)

/-- A word that matches a row of family E or F is in that row's family and has its low byte. -/
theorem fields_of_mask_familyEF {w m : Word} (h : w &&& 0xF0FF = m) :
    opField w = opField m ∧ kkField w = kkField m := by
  have hmatch : formatXK (opField w) 0 (kkField w) = m := by
    rw [← h, ← Laws.OpcodeRow.mask_familyEF, formatXK_fields]
  subst hmatch
  simp

theorem decode_of_mask_familyE {w m : Word} (h : w &&& 0xF0FF = m) (hm : opField m = 14) :
    decode w = decodeFamilyE (regOf (xField w)) (kkField m) := by
  obtain ⟨hop, hkk⟩ := fields_of_mask_familyEF h
  rw [decode_family14 w (hop.trans hm), hkk]

theorem decode_of_mask_familyF {w m : Word} (h : w &&& 0xF0FF = m) (hm : opField m = 15) :
    decode w = decodeFamilyF (regOf (xField w)) (kkField m) := by
  obtain ⟨hop, hkk⟩ := fields_of_mask_familyEF h
  rw [decode_family15 w (hop.trans hm), hkk]

/-- Row r of the opcode map decodes: a word that matches it gives an instruction of row r. -/
def RowDecodes (row : Nat × Word × Word) : Prop :=
  ∀ w : Word, w &&& row.2.2 = row.2.1 → ∃ i, decode w = .ok i ∧ rowOf i = row.1

/-- The rows in the order of the map: the whole word for CLS and RET, the family alone, or the family and its
secondary literal in families 8, E and F. -/
theorem rowDecodes_of_mem_opcodeMap : ∀ row ∈ opcodeMap, RowDecodes row := by
  simp only [opcodeMap, List.forall_mem_append, List.forall_mem_cons, List.not_mem_nil, false_imp_iff, implies_true,
    and_true]
  have whole {w m : Word} (h : w &&& 0xFFFF = m) : w = m := BitVec.and_allOnes.symm.trans h
  refine ⟨⟨⟨⟨?_, ?_, ?_, ?_, ?_, ?_, ?_, ?_, ?_⟩, ⟨?_, ?_, ?_, ?_, ?_, ?_, ?_, ?_, ?_⟩⟩,
    ⟨?_, ?_, ?_, ?_, ?_, ?_, ?_⟩⟩, ⟨?_, ?_, ?_, ?_, ?_, ?_, ?_, ?_, ?_⟩⟩ <;> intro w h
  · exact ⟨.cls, by rw [whole h]; rfl, rfl⟩
  · exact ⟨.ret, by rw [whole h]; rfl, rfl⟩
  · exact ⟨_, decode_family1 w (opField_of_mask h), rfl⟩
  · exact ⟨_, decode_family2 w (opField_of_mask h), rfl⟩
  · exact ⟨_, decode_family3 w (opField_of_mask h), rfl⟩
  · exact ⟨_, decode_family4 w (opField_of_mask h), rfl⟩
  · exact ⟨_, decode_family5 w (opField_of_mask h), rfl⟩
  · exact ⟨_, decode_family6 w (opField_of_mask h), rfl⟩
  · exact ⟨_, decode_family7 w (opField_of_mask h), rfl⟩
  iterate 9 exact ⟨_, decode_of_mask_family8 h rfl, rfl⟩
  · exact ⟨_, decode_family9 w (opField_of_mask h), rfl⟩
  · exact ⟨_, decode_family10 w (opField_of_mask h), rfl⟩
  · exact ⟨_, decode_family11 w (opField_of_mask h), rfl⟩
  · exact ⟨_, decode_family12 w (opField_of_mask h), rfl⟩
  · exact ⟨_, decode_family13 w (opField_of_mask h), rfl⟩
  iterate 2 exact ⟨_, decode_of_mask_familyE h rfl, rfl⟩
  iterate 9 exact ⟨_, decode_of_mask_familyF h rfl, rfl⟩

/-- The rows of the opcode map have different numbers. -/
theorem opcodeMap_row_unique : ∀ row ∈ opcodeMap, ∀ row' ∈ opcodeMap, row.1 = row'.1 → row = row' := by
  decide

/-- Settles O3: a decoded word is its instruction's encoding and so matches that instruction's row; and each row
decodes. -/
theorem decodeAgreesWithTheOpcodeMap : Obligations.DecodeAgreesWithTheOpcodeMap := by
  intro w row hrow
  constructor
  · rintro ⟨i, hi, hnum⟩
    obtain ⟨row', hrow', hnum', hmatch⟩ := encode_matches_opcodeRow i
    obtain rfl := opcodeMap_row_unique row' hrow' row hrow (hnum'.trans hnum)
    rwa [encodeOfDecodeIsTheWord w i hi] at hmatch
  · exact rowDecodes_of_mem_opcodeMap row hrow w

/-! ## The rejected words, the other direction (30_encoding.md R99) -/

theorem decodeFamily8_illegal (x y : Reg) {n : Nibble} (h : n.toNat ∈ [8, 9, 0xA, 0xB, 0xC, 0xD, 0xF]) :
    decodeFamily8 x y n = .error .illegalFamily8 := by
  have hlisted : ∀ m : Nibble, m.toNat ∈ [8, 9, 0xA, 0xB, 0xC, 0xD, 0xF] →
      m = 8 ∨ m = 9 ∨ m = 0xA ∨ m = 0xB ∨ m = 0xC ∨ m = 0xD ∨ m = 0xF := by decide
  rcases hlisted n h with rfl | rfl | rfl | rfl | rfl | rfl | rfl <;> rfl

theorem decodeFamilyE_illegal (x : Reg) {kk : Byte} (h : kk.toNat ∉ [0x9E, 0xA1]) :
    decodeFamilyE x kk = .error .illegalFamilyE := by
  simp_all [decodeFamilyE, BitVec.toNat_eq]

theorem decodeFamilyF_illegal (x : Reg) {kk : Byte}
    (h : kk.toNat ∉ [0x07, 0x0A, 0x15, 0x18, 0x1E, 0x29, 0x33, 0x55, 0x65]) :
    decodeFamilyF x kk = .error .illegalFamilyF := by
  simp_all [decodeFamilyF, BitVec.toNat_eq]

/-- The family of a word, read off its value. -/
theorem opField_eq_of_div {w : Word} {op : Nibble} (h : w.toNat / 0x1000 = op.toNat) : opField w = op :=
  BitVec.eq_of_toNat_eq ((opField_toNat w).trans h)

/-- A word in one of the four sets of R99 is rejected. -/
theorem decode_error_of_illegalWord {w : Word} (h : IllegalWord w) : ∃ r, decode w = .error r := by
  rcases h with ⟨hlt, hcls, hret⟩ | ⟨hop, hn⟩ | ⟨hop, hkk⟩ | ⟨hop, hkk⟩
  · have hop : opField w = 0 := opField_eq_of_div (Nat.div_eq_of_lt hlt)
    exact ⟨_, by rw [decode_family0 w hop, decodeFamily0, if_neg hcls, if_neg hret]⟩
  · rw [← nField_toNat] at hn
    exact ⟨_, (decode_family8 w (opField_eq_of_div hop)).trans (decodeFamily8_illegal _ _ hn)⟩
  · rw [← kkField_toNat] at hkk
    exact ⟨_, (decode_family14 w (opField_eq_of_div hop)).trans (decodeFamilyE_illegal _ hkk)⟩
  · rw [← kkField_toNat] at hkk
    exact ⟨_, (decode_family15 w (opField_eq_of_div hop)).trans (decodeFamilyF_illegal _ hkk)⟩

/-- Settles O4: one direction family by family over the words rejected, the other over the four sets. -/
theorem illegalWordsAreTheFourSets : Obligations.IllegalWordsAreTheFourSets := by
  intro w
  refine ⟨illegalWord_of_rejected, fun h i hi => ?_⟩
  obtain ⟨r, hr⟩ := decode_error_of_illegalWord h
  exact nomatch hr.symm.trans hi

/-! ## The step and the word at pc (30_encoding.md R91) -/

/-- Settles O5: the bytes are those of 95_test_vectors.md. -/
theorem writtenOutWordsDecode : Obligations.WrittenOutWordsDecode :=
  ⟨rfl, rfl, rfl, rfl, rfl, rfl, rfl, rfl, rfl⟩

/-- An engine that holds no fault runs the instruction it fetches. -/
theorem engineStep_of_fetches {s : State} {i : Instr} (hsafe : Safe s) (hi : Fetches s i) :
    engineStep s = exec i { s with pc := s.pc + 2 } := by
  have hn : ¬ s.fault.isSome = true := by simp [show s.fault = none from hsafe]
  simp only [engineStep, if_neg hn, fetch_ok s i hi]

/-- Settles O6: taking the event off the list leaves pc, memory and the fault register as they are. -/
theorem stepRunsTheDecodedInstruction : Obligations.StepRunsTheDecodedInstruction := by
  intro s i hev hsafe hpc hdec
  have hi : Fetches s.dropEvent i := ⟨hpc, hdec⟩
  exact (step_of_step s hev).trans (engineStep_of_fetches hsafe hi)

/-- The decoder of the host's view of the table is the decoder, on the table word. -/
theorem decode_of_decodeTableWord {nbits w : Nat} {i : Instr} (h : decodeTableWord nbits w = some i) :
    decode (tableWord nbits w) = .ok i := by
  simp only [decodeTableWord, decodeBytes, wordOfBytes_bytes] at h
  cases hd : decode (tableWord nbits w) with
  | error r => rw [hd] at h; cases h
  | ok j => rw [hd] at h; cases h; rfl

/-- The word placed at pc is the word fetched there. -/
theorem fetchWord_placeAtPc (word : Word) {s : State} (hpc : s.pc.toNat ≤ 4094) :
    fetchWord (placeAtPc word s) = word := by
  have hfits : s.pc.toNat + [firstByte word, secondByte word].length ≤ 4096 := by simp; omega
  have h0 := read_writeList_inside s.mem s.pc.toNat [firstByte word, secondByte word] 0 (by simp) hfits
  have h1 := read_writeList_inside s.mem s.pc.toNat [firstByte word, secondByte word] 1 (by simp) hfits
  calc fetchWord (placeAtPc word s) = wordOfBytes (firstByte word) (secondByte word) := congrArg₂ wordOfBytes h0 h1
    _ = word := wordOfBytes_bytes word

/-- Placing a word leaves every byte but the two at pc. -/
theorem byteAt_placeAtPc_other (word : Word) (s : State) {a : Nat} (h0 : a ≠ s.pc.toNat) (h1 : a ≠ s.pc.toNat + 1) :
    (placeAtPc word s).byteAt a = s.byteAt a :=
  read_writeList_outside _ _ _ _ (by simp; omega)

/-- An engine made ready has a pc at which a fetch is legal. -/
theorem readyToFetch_pc_le (s : State) : (readyToFetch s).pc.toNat ≤ 4094 := by
  unfold readyToFetch
  dsimp only
  split
  · decide
  · omega

/-- Settles O12: the engine is made ready, the word placed at pc, and the next step is that of `Step` with no event
listed. -/
theorem placedWordIsFetchedNext : Obligations.PlacedWordIsFetchedNext := by
  intro s nbits w i h
  refine ⟨_, rfl, ?_, rfl, rfl, fun a => byteAt_placeAtPc_other (tableWord nbits w) (readyToFetch s)⟩
  have hpc := readyToFetch_pc_le s
  have hdec : decode (fetchWord (s.withFetchWord nbits w)) = .ok i := by
    rw [State.withFetchWord, fetchWord_placeAtPc _ hpc, decode_of_decodeTableWord h]
  exact stepRunsTheDecodedInstruction (s.withFetchWord nbits w) i rfl rfl hpc hdec

end Sys2Proof.Machine

/-! PROOFS. Control transfer (40_flow.md): the jumps, CALL and RET, and the skips. Each word decodes by the
round trip of the encoder, and each operation is the case of `Completed` or `ExecFault` its rule names. -/

namespace Sys2Proof.Machine

/-! ## Jumps (R122, R129) -/

/-- Settles O13: the literal zero-extended is the literal. -/
theorem jumpLoadsPc : Obligations.JumpLoadsPc := by
  intro nnn s
  exact ⟨decodeOfEncodeIsTheInstruction (.jp nnn), absAddr nnn, absAddr_toNat nnn, exec_of_completed rfl⟩

/-- Settles O19: the largest literal plus the largest byte is below 65536, so the sum of words is exact. -/
theorem jumpWithOffset : Obligations.JumpWithOffset := by
  intro nnn s
  exact ⟨decodeOfEncodeIsTheInstruction (.jpV0 nnn), offsetTarget s nnn, offsetTarget_toNat s nnn,
    exec_of_completed rfl⟩

/-! ## CALL and RET (R121, R123) -/

/-- Settles O14: a push completes below depth 16, and at depth 16 the check fails before anything changes. -/
theorem callPushesTheReturnAddress : Obligations.CallPushesTheReturnAddress := by
  intro nnn s
  refine ⟨decodeOfEncodeIsTheInstruction (.call nnn), fun hroom => ?_, fun hfull => ?_⟩
  · exact ⟨absAddr nnn, ⟨s.sp.val + 1, by omega⟩, absAddr_toNat nnn, rfl, exec_of_completed ⟨hroom, rfl⟩⟩
  · exact exec_of_execFault ⟨hfull, rfl⟩

/-- Settles O15: a pop completes at depth j + 1, and at depth 0 the check fails before anything changes. -/
theorem returnPopsTheStack : Obligations.ReturnPopsTheStack := by
  intro s
  refine ⟨decodeOfEncodeIsTheInstruction .ret, fun j hj => ?_, fun hempty => ?_⟩
  · exact ⟨⟨j.val, by omega⟩, rfl, exec_of_completed ⟨j, hj, rfl⟩⟩
  · exact exec_of_execFault ⟨hempty, rfl⟩

/-! ## Skips (R125 to R128) -/

/-- The pc of a skip on equality: bytes are equal exactly when they are equal as numbers. -/
theorem skipOnEqual_pc (a b : Byte) (p : Word) :
    (if a.toNat = b.toNat then p + 2 else p) = if a = b then p + 2 else p := by
  simp only [BitVec.toNat_inj]

/-- The pc of a skip on inequality, its branches in the other order. -/
theorem skipOnDifferent_pc (a b : Byte) (p : Word) :
    (if a.toNat = b.toNat then p else p + 2) = if a ≠ b then p + 2 else p := by
  simp only [BitVec.toNat_inj, ite_not]

/-- Settles O17: SE and SNE with a literal complete with the pc of their skip. -/
theorem immediateSkips : Obligations.ImmediateSkips := by
  intro x kk s
  rw [skipOnEqual_pc, skipOnDifferent_pc]
  exact ⟨decodeOfEncodeIsTheInstruction (.seI x kk), decodeOfEncodeIsTheInstruction (.sneI x kk),
    exec_of_completed rfl, exec_of_completed rfl⟩

/-- Settles O18: SE and SNE with a second register complete with the pc of their skip, and the ignored nibble decodes
into an operand that neither reads. -/
theorem registerSkips : Obligations.RegisterSkips := by
  intro x y u s
  rw [skipOnEqual_pc, skipOnDifferent_pc]
  exact ⟨decodeOfEncodeIsTheInstruction (.seR x y u), decodeOfEncodeIsTheInstruction (.sneR x y u),
    exec_of_completed rfl, exec_of_completed rfl⟩

end Sys2Proof.Machine

/-! PROOFS. Arithmetic (41_alu.md): register loads, the 8-prefixed family and RND. Each word decodes by the round
trip of the encoder, each operation completes as `Completed` says, and what is left is the result as a number or bit
by bit. -/

namespace Sys2Proof.Machine

/-! ## Loads, sums and logic without a flag (R141 to R146) -/

/-- Settles O20: LD with a literal completes with the literal in its register. -/
theorem loadImmediate : Obligations.LoadImmediate := by
  intro x kk s
  exact ⟨decodeOfEncodeIsTheInstruction (.ldI x kk), exec_of_completed rfl⟩

/-- Settles O21: the sum of bytes is the exact sum modulo 256. -/
theorem addImmediate : Obligations.AddImmediate := by
  intro x kk s
  exact ⟨decodeOfEncodeIsTheInstruction (.addI x kk), s.getV x + kk, BitVec.toNat_add _ _, exec_of_completed rfl⟩

/-- Settles O22: LD completes with the value of Vy, and OR, AND and XOR of bytes are those of each pair of bits. -/
theorem assignmentAndLogic : Obligations.AssignmentAndLogic := by
  intro x y s
  refine ⟨decodeOfEncodeIsTheInstruction (.ldR x y), decodeOfEncodeIsTheInstruction (.orR x y),
    decodeOfEncodeIsTheInstruction (.andR x y), decodeOfEncodeIsTheInstruction (.xorR x y),
    exec_of_completed rfl, ?_, ?_, ?_⟩
  · exact ⟨s.getV x ||| s.getV y, fun _ => BitVec.getLsbD_or, exec_of_completed rfl⟩
  · exact ⟨s.getV x &&& s.getV y, fun _ => BitVec.getLsbD_and, exec_of_completed rfl⟩
  · exact ⟨s.getV x ^^^ s.getV y, fun _ => BitVec.getLsbD_xor, exec_of_completed rfl⟩

/-! ## Operations whose flag is written last (R140, R147 to R151) -/

/-- An instruction that completes by writing its result and then its flag answers the state whose registers are
those, read as numbers. -/
theorem exec_of_resultThenFlag {i : Instr} {s : State} {x : Reg} {r f : Byte} {result flag : Nat}
    (h : Completed i s (s.setResultFlag x r f)) (hr : r.toNat = result) (hf : f.toNat = flag) :
    ∃ v', exec i s = .next { s with v := v' } ∧ ResultThenFlag s x result flag v' := by
  subst hr hf
  exact ⟨(s.setResultFlag x r f).v, exec_of_completed h, setResultFlag_spec s x r f⟩

/-- A difference of bytes, borrowing 256 where it needs to. -/
theorem toNat_sub_byte (a b : Byte) : (a - b).toNat = (a.toNat + 256 - b.toNat) % 256 := by
  rw [BitVec.toNat_sub]
  omega

/-- A byte shifted right by one is half of it. -/
theorem toNat_ushiftRight_one (a : Byte) : (a >>> 1).toNat = a.toNat / 2 := by
  rw [BitVec.toNat_ushiftRight, Nat.shiftRight_one]

/-- A byte shifted left by one is its double modulo 256. -/
theorem toNat_shiftLeft_one (a : Byte) : (a <<< 1).toNat = a.toNat * 2 % 256 := by
  rw [BitVec.toNat_shiftLeft, Nat.shiftLeft_eq]

/-- Settles O23: ADD completes with the sum of bytes and the carry out of it. -/
theorem addWithCarryOut : Obligations.AddWithCarryOut := by
  intro x y s
  exact ⟨decodeOfEncodeIsTheInstruction (.addR x y),
    exec_of_resultThenFlag rfl (BitVec.toNat_add _ _) (carryFlag_toNat _ _)⟩

/-- Settles O24: SUB and SUBN complete with the difference in their own order, and not-borrow in the same order. -/
theorem subtractsWithNotBorrow : Obligations.SubtractsWithNotBorrow := by
  intro x y s
  exact ⟨decodeOfEncodeIsTheInstruction (.sub x y), decodeOfEncodeIsTheInstruction (.subn x y),
    exec_of_resultThenFlag rfl (toNat_sub_byte _ _) (noBorrowFlag_toNat _ _),
    exec_of_resultThenFlag rfl (toNat_sub_byte _ _) (noBorrowFlag_toNat _ _)⟩

/-- Settles O25: SHR and SHL complete with Vx shifted and the bit that leaves it; y is decoded and not read. -/
theorem shiftsWithTheBitShiftedOut : Obligations.ShiftsWithTheBitShiftedOut := by
  intro x y s
  exact ⟨decodeOfEncodeIsTheInstruction (.shr x y), decodeOfEncodeIsTheInstruction (.shl x y),
    exec_of_resultThenFlag rfl (toNat_ushiftRight_one _) (shrFlag_toNat _),
    exec_of_resultThenFlag rfl (toNat_shiftLeft_one _) (shlFlag_toNat _)⟩

/-! ## RND (R155) -/

/-- Settles O26: nothing is asked of the byte drawn, since AND of bytes is AND of each pair of bits. -/
theorem randomByteUnderTheMask : Obligations.RandomByteUnderTheMask := by
  intro x kk s
  exact ⟨decodeOfEncodeIsTheInstruction (.rnd x kk), Config.rnd s.draws &&& kk, exec_of_completed rfl,
    fun _ => BitVec.getLsbD_and⟩

end Sys2Proof.Machine

/-! PROOFS. The index register and the memory instructions (42_index_memory.md). Each word decodes by the round trip of
the encoder; each operation is the case of `Completed` its rule names or, where its range reaches above 0xFFF, the one
fault of the range check. -/

namespace Sys2Proof.Machine

/-! ## The index register (R170 to R172) -/

/-- Settles O27: the literal zero-extended is the literal. -/
theorem setIndexRegister : Obligations.SetIndexRegister := by
  intro nnn s
  exact ⟨decodeOfEncodeIsTheInstruction (.ldIdx nnn), absAddr nnn, absAddr_toNat nnn, exec_of_completed rfl⟩

/-- Settles O28: the sum of words is the exact sum modulo 65536. -/
theorem indexAdd : Obligations.IndexAdd := by
  intro x s
  have hsum : (s.i + wide (s.getV x)).toNat = (s.i.toNat + (s.getV x).toNat) % 65536 := by
    rw [BitVec.toNat_add, wide_toNat]
  exact ⟨decodeOfEncodeIsTheInstruction (.addIdx x), _, hsum, exec_of_completed rfl⟩

/-- Settles O29: five times the largest byte is below 65536, so the product of words is exact. -/
theorem glyphAddress : Obligations.GlyphAddress := by
  intro x s
  exact ⟨decodeOfEncodeIsTheInstruction (.ldF x), glyphAddr (s.getV x), glyphAddr_toNat _, exec_of_completed rfl⟩

/-! ## The range check (R173 to R176) -/

/-- An instruction whose range of memory is not empty and reaches above 0xFFF raises the fault of the range check. -/
theorem exec_of_rangeAbove (i : Instr) (s : State) {len : Nat} (hlen : accessLen i = some len) (hpos : 0 < len)
    (hhigh : s.i.toNat + len - 1 > 0xFFF) : ∃ a : Word, a.toNat = max s.i.toNat 0x1000 ∧
      exec i s = .next { s with pc := s.pc - 2, fault := some (.memOutOfRange a) } := by
  obtain ⟨a, ha, -⟩ := rangeFault_some s.i len hpos hhigh
  refine ⟨a, ha, exec_of_execFault ?_⟩
  cases i with
  | drw | ldB | stM | ldM => exact ⟨len, a, hlen, hpos, hhigh, ha, rfl⟩
  | _ => cases hlen

/-! ## Stores (R173, R175) -/

/-- Settles O30: the three bytes written are read back one by one, and each is a quotient or remainder of bytes. -/
theorem decimalDigitsToMemory : Obligations.DecimalDigitsToMemory := by
  intro x s
  refine ⟨decodeOfEncodeIsTheInstruction (.ldB x), fun hfits => ?_, exec_of_rangeAbove (.ldB x) s rfl (by decide)⟩
  have hread (k : Nat) (hk : k < 3) :=
    read_writeList_inside s.mem s.i.toNat (decimalDigits (s.getV x)) k hk (by rw [decimalDigits_length]; omega)
  refine ⟨_, exec_of_completed ⟨hfits, rfl⟩, ?_, ?_, ?_, fun a ha => ?_⟩
  · exact (congrArg BitVec.toNat (hread 0 (by decide))).trans BitVec.toNat_udiv
  · exact (congrArg BitVec.toNat (hread 1 (by decide))).trans (by simp [decimalDigits])
  · exact (congrArg BitVec.toNat (hread 2 (by decide))).trans BitVec.toNat_umod
  · exact read_writeList_outside _ _ _ _ (by rw [decimalDigits_length]; omega)

/-- Settles O31: `read_writeList_blockRegs` inside the block, and no byte outside it is written. -/
theorem blockStoreToMemory : Obligations.BlockStoreToMemory := by
  intro x s
  refine ⟨decodeOfEncodeIsTheInstruction (.stM x), fun hfits => ?_,
    exec_of_rangeAbove (.stM x) s rfl (Nat.succ_pos _)⟩
  refine ⟨_, exec_of_completed ⟨hfits, rfl⟩, fun k hk => read_writeList_blockRegs s hfits hk, fun a ha => ?_⟩
  exact read_writeList_outside _ _ _ _ (by rw [blockRegs_length]; omega)

/-! ## The block load (R176) -/

/-- Loading a block of x + 1 bytes from V0 up gives V0 to Vx its bytes and leaves the registers above x. -/
theorem getElem_setRegs_block (v : Vector Byte 16) (x k : Reg) (f : Nat → Byte) :
    (setRegs v 0 ((List.range (x.val + 1)).map f))[k] = if k ≤ x then f k.val else v[k] := by
  split
  · next hk =>
    have hlt : k.val < x.val + 1 := Nat.lt_succ_of_le hk
    simp [setRegs_getElem, hlt]
  · next hk => exact getElem_setRegs_beyond _ _ _ (by simpa using lt_of_not_ge hk)

/-- Settles O32: the registers of the loaded block up to x, and those above x. -/
theorem blockLoadFromMemory : Obligations.BlockLoadFromMemory := by
  intro x s
  refine ⟨decodeOfEncodeIsTheInstruction (.ldM x), fun hfits => ?_,
    exec_of_rangeAbove (.ldM x) s rfl (Nat.succ_pos _)⟩
  refine ⟨_, exec_of_completed ⟨hfits, rfl⟩, fun k hk => ?_, fun k hk => ?_⟩
  · rw [getElem_setRegs_block, if_pos hk]
  · rw [getElem_setRegs_block, if_neg (not_le_of_gt hk)]

/-- Settles O33: the load's range passes the check that the store's passed, and each byte it reads is the register
stored there. -/
theorem blockStoreThenLoadRoundTrips : Obligations.BlockStoreThenLoadRoundTrips := by
  intro x s hfits
  refine ⟨_, exec_of_completed ⟨hfits, rfl⟩, fun r hmem hi => ?_⟩
  have hfits' : r.i.toNat + x.val ≤ 0xFFF := hi ▸ hfits
  refine ⟨_, exec_of_completed ⟨hfits', rfl⟩, fun k => ?_⟩
  rw [getV_def, getElem_setRegs_block]
  split
  · next hk => rw [byteAt_def, hmem, hi, read_writeList_blockRegs s hfits hk]
  · rfl

end Sys2Proof.Machine

/-! PROOFS. The display (43_display.md): CLS and DRW. The case of `Completed` for DRW is given a name, `afterDraw`;
its cells and its flag follow from `drawRows_spec`, the sprite being read as the one pixel it puts on each cell. -/

namespace Sys2Proof.Machine

/-- Settles O36: CLS completes with the clear display. -/
theorem clearDisplayClearsEveryCell : Obligations.ClearDisplayClearsEveryCell := by
  intro s
  exact ⟨decodeOfEncodeIsTheInstruction .cls, clearDisplay, exec_of_completed rfl, cell_clear⟩

/-! ## What one draw leaves (R192 to R195) -/

/-- The pixel that DRW puts on a cell, its origin taken from the registers of `s` (R193). -/
def drwPixel (x y : Reg) (n : Nibble) (s : State) (row col : Nat) : Bool :=
  spriteBit s n.toNat (originRow s y) (originCol s x) row col

/-- The state in which DRW completes. -/
def afterDraw (x y : Reg) (n : Nibble) (s : State) : State :=
  { s with v := s.v.set flagReg (flagByte (drawn x y n s).hit), disp := (drawn x y n s).disp,
           presented := (drawn x y n s).disp :: s.presented }

/-- DRW completes when its sprite is empty or ends at 0xFFF or below. -/
theorem exec_drw (x y : Reg) {n : Nibble} {s : State} (h : n = 0 ∨ s.i.toNat + n.toNat - 1 ≤ 0xFFF) :
    exec (.drw x y n) s = .next (afterDraw x y n s) :=
  exec_of_completed ⟨h.imp_left (congrArg BitVec.toNat), rfl⟩

/-- Each cell on the screen is XORed with the sprite's pixel on it. -/
theorem cell_afterDraw (x y : Reg) (n : Nibble) (s : State) {row col : Nat} (hrow : row < 32) (hcol : col < 64) :
    cell (afterDraw x y n s).disp row col = (cell s.disp row col ^^ drwPixel x y n s row col) := by
  rw [drwPixel, ← rowsBit_sprite]
  exact (drawRows_spec _ _ _ _).1 row col hrow hcol

/-- The registers other than VF are unchanged. -/
theorem getV_afterDraw_other (x y : Reg) (n : Nibble) (s : State) {k : Reg} (hk : k ≠ flagReg) :
    (afterDraw x y n s).getV k = s.getV k :=
  getV_setV_other s flagReg k _ hk

/-- VF holds the collision flag. -/
theorem getV_afterDraw_flag (x y : Reg) (n : Nibble) (s : State) :
    (afterDraw x y n s).getV flagReg = flagByte (drawn x y n s).hit :=
  getV_setV_self s flagReg _

/-- The collision flag is 0 or 1. -/
theorem flag_afterDraw_zero_or_one (x y : Reg) (n : Nibble) (s : State) :
    (afterDraw x y n s).getV flagReg = 0 ∨ (afterDraw x y n s).getV flagReg = 1 := by
  rw [getV_afterDraw_flag]
  cases (drawn x y n s).hit with
  | false => exact .inl rfl
  | true => exact .inr rfl

/-- The collision flag is 1 exactly when a pixel of 1 met a cell that was lit. -/
theorem flag_afterDraw_eq_one (x y : Reg) (n : Nibble) (s : State) :
    (afterDraw x y n s).getV flagReg = 1 ↔
      ∃ row col, row < 32 ∧ col < 64 ∧ cell s.disp row col = true ∧ drwPixel x y n s row col = true := by
  rw [getV_afterDraw_flag, flagByte_eq_one, drawn, (drawRows_spec _ _ _ _).2]
  simp only [rowsBit_sprite, drwPixel, Bool.false_eq_true, false_or]

/-- Settles O37: `afterDraw` when the sprite is in range, and else the fault of the range check. -/
theorem drawXorsTheSprite : Obligations.DrawXorsTheSprite := by
  intro x y n s
  refine ⟨decodeOfEncodeIsTheInstruction (.drw x y n), fun hfits => ?_, fun hn hhigh => ?_⟩
  · exact ⟨_, _, exec_drw x y hfits, fun _ _ => cell_afterDraw x y n s, fun _ => getV_afterDraw_other x y n s,
      flag_afterDraw_zero_or_one x y n s, flag_afterDraw_eq_one x y n s⟩
  · have hpos : 0 < n.toNat := Nat.pos_of_ne_zero fun h0 => hn (BitVec.eq_of_toNat_eq h0)
    exact exec_of_rangeAbove (.drw x y n) s rfl hpos hhigh

/-! ## The empty sprite (R196) -/

/-- A draw of no rows leaves the display and writes a flag of 0. -/
theorem afterDraw_zero (x y : Reg) (s : State) :
    afterDraw x y 0 s = { s with v := s.v.set flagReg 0, presented := s.disp :: s.presented } := rfl

/-- Settles O38: the step runs DRW, which with n = 0 completes for every I. -/
theorem drawOfHeightZero : Obligations.DrawOfHeightZero := by
  intro x y s hev hsafe hfetch
  obtain ⟨hpc, hdec⟩ := hfetch
  refine ⟨_, ?_, rfl⟩
  rw [stepRunsTheDecodedInstruction s _ hev hsafe hpc hdec, exec_drw x y (.inl rfl), afterDraw_zero]

/-! ## Drawing twice (R197) -/

/-- With x and y other than F a draw leaves the sprite and its origin as they were, wherever pc is set next: it
writes neither memory, nor I, nor Vx, nor Vy. -/
theorem drwPixel_afterDraw {x y : Reg} (hx : x ≠ flagReg) (hy : y ≠ flagReg) (n : Nibble) (s : State) (p : Word)
    (row col : Nat) : drwPixel x y n { afterDraw x y n s with pc := p } row col = drwPixel x y n s row col := by
  have htop : originRow { afterDraw x y n s with pc := p } y = originRow s y :=
    congrArg (·.toNat % 32) (getV_afterDraw_other x y n s hy)
  have hleft : originCol { afterDraw x y n s with pc := p } x = originCol s x :=
    congrArg (·.toNat % 64) (getV_afterDraw_other x y n s hx)
  rw [drwPixel, htop, hleft]
  rfl

/-- Settles O39: both draws put the same pixel on a cell, so the second XOR cancels the first, and a pixel of 1 meets
a lit cell in the second draw exactly where it met a dark one in the first. -/
theorem drawTwiceRestoresTheDisplay : Obligations.DrawTwiceRestoresTheDisplay := by
  intro x y n s p hx hy hfits
  have hsame := drwPixel_afterDraw hx hy n s p
  refine ⟨_, _, exec_drw x y hfits, exec_drw x y hfits, ?_, ?_⟩
  · refine bitmap_ext _ _ fun row col hrow hcol => ?_
    rw [cell_afterDraw x y n _ hrow hcol, hsame, cell_afterDraw x y n s hrow hcol, Bool.xor_assoc, Bool.xor_self,
      Bool.xor_false]
  · rw [flag_afterDraw_eq_one]
    refine exists₂_congr fun row col => and_congr_right fun hrow => and_congr_right fun hcol => ?_
    rw [hsame, cell_afterDraw x y n s hrow hcol]
    refine and_congr_left fun hbit => ?_
    rw [hbit, Bool.xor_true, Bool.not_eq_true']

end Sys2Proof.Machine

/-! PROOFS. Timers and keys (44_timers_keys.md), and the states in which the engine stands still. Each word decodes by
the round trip of the encoder; each operation is the case of `Completed` or `ExecFault` its rule names, and an engine
stands still where that case gives back the state before the fetch. -/

namespace Sys2Proof.Machine

/-! ## Timers (R210 to R212) -/

/-- The tone is requested exactly while ST is not 0 as a number (R251). -/
theorem toneRequest_iff (s : State) : s.toneRequest = true ↔ s.st.toNat ≠ 0 :=
  bne_iff_ne.trans BitVec.toNat_ne_iff_ne.symm

/-- Settles O40: the three instructions complete, and `toneRequest_iff` is about the ST that LD ST, Vx left. -/
theorem timerReadAndWrite : Obligations.TimerReadAndWrite := by
  intro x s
  exact ⟨decodeOfEncodeIsTheInstruction (.ldVxDt x), decodeOfEncodeIsTheInstruction (.ldDtVx x),
    decodeOfEncodeIsTheInstruction (.ldStVx x), exec_of_completed rfl, exec_of_completed rfl,
    _, exec_of_completed rfl, rfl, toneRequest_iff _⟩

/-! ## Key skips (R213, R214) -/

/-- A skip on a free line is the skip on a held line, its branches in the other order. -/
theorem skipOnFree_pc (held : Bool) (p : Word) :
    (if held = false then p + 2 else p) = if held = true then p else p + 2 := by
  simp only [← Bool.not_eq_true, ite_not]

/-- Settles O41: a key number is at most 15, so the check passes and the skip is on its line; above 15 the check fails
before anything changes. -/
theorem keyStateSkips : Obligations.KeyStateSkips := by
  intro x s
  refine ⟨decodeOfEncodeIsTheInstruction (.skp x), decodeOfEncodeIsTheInstruction (.sknp x), fun k hk => ?_,
    fun hhigh => ⟨exec_of_execFault ⟨hhigh, rfl⟩, exec_of_execFault ⟨hhigh, rfl⟩⟩⟩
  have hle : (s.getV x).toNat ≤ 15 := by omega
  constructor
  · rw [← keyLine_def, ← hk]
    exact exec_of_completed ⟨hle, rfl⟩
  · rw [← keyLine_def, ← hk, ← skipOnFree_pc]
    exact exec_of_completed ⟨hle, rfl⟩

/-! ## The wait for a key (R215) -/

/-- Settles O42: the lowest key that LD Vx, K finds is the least held one, and none when no line is held. -/
theorem waitForKey : Obligations.WaitForKey := by
  intro x s
  refine ⟨decodeOfEncodeIsTheInstruction (.ldVxK x), fun k hheld hleast => ?_, fun hnone => ?_⟩
  · have hk : lowestKey s = some k.val :=
      lowestKey_some s k.val k.isLt hheld fun j hj => hleast ⟨j, hj.trans k.isLt⟩ hj
    have hbyte : (BitVec.ofNat 8 k.val).toNat = k.val := by
      rw [BitVec.toNat_ofNat]
      omega
    exact ⟨_, hbyte, exec_of_completed (.inl ⟨k.val, hk, rfl⟩)⟩
  · exact exec_of_completed (.inr ⟨lowestKey_none s hnone, rfl⟩)

/-! ## Standing still (R216, R239, R277) -/

/-- A faulted engine does nothing at a `Step` (R239). -/
theorem engineStep_of_fault {s : State} (h : s.fault ≠ none) : engineStep s = .next s :=
  if_pos (Option.isSome_iff_ne_none.2 h)

/-- An engine stands still at an instruction that, run after the fetch, completes in the state before it. -/
theorem engineStep_of_completed_self {s : State} {i : Instr} (hi : Fetches s i)
    (h : Completed i { s with pc := s.pc + 2 } s) : engineStep s = .next s := by
  by_cases hsafe : Safe s
  · exact (engineStep_of_fetches hsafe hi).trans (exec_of_completed h)
  · exact engineStep_of_fault hsafe

/-- An engine that waits for a key stands still: LD Vx, K takes back the 2 that the fetch added to pc (R216). -/
theorem engineStep_of_waiting {s : State} (h : Waiting s) : engineStep s = .next s := by
  obtain ⟨x, hi, hnone⟩ := h
  have hpc : s.pc + 2 - 2 = s.pc := BitVec.add_sub_cancel s.pc 2
  exact engineStep_of_completed_self hi (.inr ⟨lowestKey_none _ hnone, by rw [hpc]⟩)

/-- An engine at a jump to itself stands still (R277). -/
theorem engineStep_of_idle {s : State} (h : Idle s) : engineStep s = .next s := by
  obtain ⟨nnn, hi, hself⟩ := h
  exact engineStep_of_completed_self hi (by rw [Completed, hself])

/-- A machine whose step answers the state itself is in that state after any number of steps. -/
theorem run_of_step_self (M : Host.Core) {s : M.State} (h : M.step s = .next s) (n : Nat) : M.run n s = .next s := by
  induction n with
  | zero => rfl
  | succ n ih => rw [Host.Core.run, h]; exact ih

/-- Settles O43: with no event listed a step is a step of the engine, which in each of the three cases answers the
state itself. -/
theorem waitingIdleAndFaultedRunsStandStill : Obligations.WaitingIdleAndFaultedRunsStandStill := by
  intro n s hevents hstill
  have hengine : engineStep s = .next s := by
    rcases hstill with hwait | hidle | hfault
    · exact engineStep_of_waiting hwait
    · exact engineStep_of_idle hidle
    · exact engineStep_of_fault hfault
  obtain ⟨hnext, hdrop⟩ := nextEvent_nil s hevents
  have hstep : step s = .next s := by rw [step_of_step s hnext, hdrop, hengine]
  exact run_of_step_self Sys2Proof.core hstep n

end Sys2Proof.Machine

/-! PROOFS. Exceptions and events (60_exceptions.md): what each event leaves, that a `Step` of the engine faults exactly
on the closed list of R231, and that no step stops but a boot image that is too long. -/

namespace Sys2Proof.Machine

/-! ## Raising a listed fault (R231 to R238) -/

/-- The fault of a fetch is raised into the fault register, and nothing else changes (R232, R233). -/
theorem engineStep_of_fetch_error {s : State} {f : Fault} (hsafe : Safe s) (h : fetch s = .error f) :
    engineStep s = .next { s with fault := some f } := by
  have hn : ¬ s.fault.isSome = true := by simp [show s.fault = none from hsafe]
  simp only [engineStep, if_neg hn, h, raise_eq]

/-- The fault of an execute-time check is raised with pc back at the instruction (R234 to R237). -/
theorem engineStep_of_execFault {s : State} {i : Instr} {f : Fault} (hsafe : Safe s) (hi : Fetches s i)
    (hf : ExecFault i { s with pc := s.pc + 2 } f) : engineStep s = .next { s with fault := some f } := by
  rw [engineStep_of_fetches hsafe hi, exec_of_execFault hf, BitVec.add_sub_cancel]

/-- An instruction whose range through I is not empty and reaches above 0xFFF fails its check (R236). -/
theorem execFault_of_accessLen {i : Instr} {s : State} {len : Nat} {a : Word} (hlen : accessLen i = some len)
    (hpos : 0 < len) (hhigh : s.i.toNat + len - 1 > 0xFFF) (ha : a.toNat = max s.i.toNat 0x1000) :
    ExecFault i s (.memOutOfRange a) := by
  cases i with
  | ret | call | skp | sknp => cases hlen
  | _ => exact ⟨len, a, hlen, hpos, hhigh, ha, rfl⟩

/-- A `Step` of an engine without a fault raises the fault whose condition holds, precisely. -/
theorem engineStep_of_faultCondition {s : State} {f : Fault} (hsafe : Safe s) (h : FaultCondition f s) :
    engineStep s = .next { s with fault := some f } := by
  cases f with
  | pcOutOfRange p =>
    obtain ⟨hpc, rfl⟩ := h
    exact engineStep_of_fetch_error hsafe (fetch_outOfRange s hpc)
  | illegalInstruction w =>
    obtain ⟨hpc, rfl, hw⟩ := h
    exact engineStep_of_fetch_error hsafe (fetch_illegal s hpc ((illegalWordsAreTheFourSets _).2 hw))
  | stackOverflow =>
    obtain ⟨⟨nnn, hi⟩, hsp⟩ := h
    exact engineStep_of_execFault hsafe hi ⟨hsp, rfl⟩
  | stackUnderflow =>
    obtain ⟨hi, hsp⟩ := h
    exact engineStep_of_execFault hsafe hi ⟨hsp, rfl⟩
  | memOutOfRange a =>
    obtain ⟨⟨i, len, hi, hlen, hpos, hhigh⟩, ha⟩ := h
    exact engineStep_of_execFault hsafe hi (execFault_of_accessLen hlen hpos hhigh ha)
  | keyIndexOutOfRange k =>
    obtain ⟨⟨x, hskp | hsknp, rfl⟩, hk⟩ := h
    · exact engineStep_of_execFault hsafe hskp ⟨hk, rfl⟩
    · exact engineStep_of_execFault hsafe hsknp ⟨hk, rfl⟩

/-! ## All that a `Step` of the engine answers (R230, R239) -/

/-- A `Step` of an engine without a fault raises a listed fault, precisely, or ends without one. -/
theorem engineStep_answers {s : State} (hsafe : Safe s) :
    (∃ f, FaultCondition f s ∧ engineStep s = .next { s with fault := some f }) ∨
    ∃ t, t.fault = none ∧ engineStep s = .next t := by
  rcases engineStep_cases s with ⟨hfault, -⟩ | ⟨-, hpc, e⟩ | ⟨-, hpc, hrejected, e⟩ | ⟨-, i, hi, e⟩
  · exact absurd hsafe hfault
  · exact .inl ⟨.pcOutOfRange s.pc, ⟨hpc, rfl⟩, e⟩
  · exact .inl ⟨.illegalInstruction (fetchWord s), ⟨hpc, rfl, illegalWord_of_rejected hrejected⟩, e⟩
  · rcases exec_answers i { s with pc := s.pc + 2 } with ⟨f, hf, -⟩ | ⟨t, hc, e'⟩
    · exact .inl ⟨f, faultCondition_of_execFault hi hf, engineStep_of_execFault hsafe hi hf⟩
    · exact .inr ⟨t, (completed_fault_events hc).1.trans hsafe, e.trans e'⟩

/-- A `Step` of an engine without a fault ends with a fault exactly when that fault's condition holds. -/
theorem engineStep_fault_iff {s : State} (hsafe : Safe s) (f : Fault) :
    (∃ t, engineStep s = .next t ∧ t.fault = some f) ↔ FaultCondition f s := by
  refine ⟨fun ⟨t, e, ht⟩ => ?_, fun h => ⟨_, engineStep_of_faultCondition hsafe h, rfl⟩⟩
  rcases engineStep_answers hsafe with ⟨g, hg, e'⟩ | ⟨u, hu, e'⟩ <;> cases e.symm.trans e'
  · cases ht
    exact hg
  · cases hu.symm.trans ht

/-- The engine never stops: a fault is a next state, and a faulted engine stays as it is. -/
theorem engineStep_next (s : State) : ∃ t, engineStep s = .next t := by
  by_cases hsafe : Safe s
  · rcases engineStep_answers hsafe with ⟨f, -, e⟩ | ⟨t, -, e⟩ <;> exact ⟨_, e⟩
  · exact ⟨s, engineStep_of_fault hsafe⟩

/-! ## The step of the machine -/

/-- Settles O10: taking the event off the list leaves every field a condition looks at. -/
theorem stepFaultsExactlyWhenListed : Obligations.StepFaultsExactlyWhenListed := by
  intro s f hev hsafe
  have hdrop : FaultCondition f s.dropEvent ↔ FaultCondition f s :=
    ⟨fun h => faultCondition_congr h rfl rfl rfl rfl rfl, fun h => faultCondition_congr h rfl rfl rfl rfl rfl⟩
  have hsafe : Safe s.dropEvent := hsafe
  rw [step_of_step s hev, ← hdrop]
  exact ⟨engineStep_fault_iff hsafe f, engineStep_of_faultCondition hsafe⟩

/-- Settles O7: the condition of PcOutOfRange holds. -/
theorem fetchAbove4094RaisesPcOutOfRange : Obligations.FetchAbove4094RaisesPcOutOfRange :=
  fun s hev hsafe hpc => (stepFaultsExactlyWhenListed s _ hev hsafe).2 ⟨hpc, rfl⟩

/-- Settles O8: the condition of IllegalInstruction holds. -/
theorem illegalWordRaisesIllegalInstruction : Obligations.IllegalWordRaisesIllegalInstruction :=
  fun s _ hev hsafe hpc hw hillegal => (stepFaultsExactlyWhenListed s _ hev hsafe).2 ⟨hpc, hw, hillegal⟩

/-- Settles O11: of the four events only a boot can be refused. -/
theorem stepStopsOnlyOnALongImage : Obligations.StepStopsOnlyOnALongImage := by
  intro s
  cases hev : s.nextEvent with
  | step => exact .inl (step_of_step s hev ▸ engineStep_next s.dropEvent)
  | tick => exact .inl ⟨_, step_of_tick s hev⟩
  | keyPress k => exact .inl ⟨_, step_of_keyPress s k hev⟩
  | boot image =>
    rcases boot_cases image s.dropEvent with ⟨-, e⟩ | ⟨hlong, e⟩
    · exact .inl ⟨_, (step_of_boot s image hev).trans e⟩
    · exact .inr ⟨image, rfl, hlong, (step_of_boot s image hev).trans e⟩

/-! ## `Tick` and `KeyPress` (R246, R247), and a faulted machine (R239) -/

/-- Settles O44: each timer is counted down once, and the key lines are 0. -/
theorem tickCountsDownAndClearsKeys : Obligations.TickCountsDownAndClearsKeys :=
  fun s hev => ⟨_, _, _, step_of_tick s hev, countDown_toNat s.dt, countDown_toNat s.st, fun _ => BitVec.getLsbD_zero⟩

/-- Settles O45: `keyPress` changes the key lines alone, as `keyPress_line` says. -/
theorem keyPressSetsItsLine : Obligations.KeyPressSetsItsLine :=
  fun s k hev => ⟨_, step_of_keyPress s k hev, fun j => keyPress_line k j s.dropEvent⟩

/-- Settles O9: the engine does nothing under a fault, and the other two events do not look at the fault register. -/
theorem faultedMachineIgnoresSteps : Obligations.FaultedMachineIgnoresSteps := by
  intro s hfault
  refine ⟨fun hev => ?_, step_of_tick s, keyPressSetsItsLine s⟩
  have hfault : s.dropEvent.fault ≠ none := hfault
  exact (step_of_step s hev).trans (engineStep_of_fault hfault)

end Sys2Proof.Machine

/-! PROOFS. Reset and load (70_reset_and_hazards.md): what a load leaves at each address, and what a boot answers. -/

namespace Sys2Proof.Machine

/-! ## Reset, then load (R270, R273) -/

/-- An image that fits is in memory verbatim, from 0x200 up. -/
theorem byteAt_load_inside {image : List Byte} (s : State) (hfits : image.length ≤ 3584) {k : Nat}
    (hk : k < image.length) : (load image s).byteAt (0x200 + k) = image[k] :=
  read_writeList_inside s.mem Config.progBase image k hk (Nat.add_le_add_left hfits Config.progBase)

/-- A load leaves every byte below 0x200 and every byte past the image. -/
theorem byteAt_load_outside (image : List Byte) (s : State) {a : Nat} (ha : a < 0x200 ∨ 0x200 + image.length ≤ a) :
    (load image s).byteAt a = s.byteAt a :=
  read_writeList_outside s.mem Config.progBase a image ha

/-- Settles O46: a boot loads the reset state or refuses, by the length of the image; `resetNow` has the memory of
`State.reset`. -/
theorem bootResetsAndLoadsTheImage : Obligations.BootResetsAndLoadsTheImage := by
  intro s image hev
  rw [step_of_boot s image hev]
  rcases boot_cases image s.dropEvent with ⟨hfits, e⟩ | ⟨hlong, e⟩
  · refine ⟨fun _ => ⟨_, e, ?_, ?_⟩, fun h => absurd hfits (Nat.not_le_of_gt h)⟩
    · exact fun _ hk => byteAt_load_inside (resetNow s.dropEvent) hfits hk
    · exact fun _ ha => byteAt_load_outside image (resetNow s.dropEvent) ha
  · exact ⟨fun h => absurd h (Nat.not_le_of_gt hlong), fun _ => e⟩

end Sys2Proof.Machine
